-- ==== Sys2Proof/Word.lean ====
section
/-! DEFINITION. Sys2Proof/Word.lean: the two bit-vector types of the block (00_scope.md R5, R6).
Bit 0 is the least significant bit of each. -/

namespace Sys2Proof

/-- A byte: an element of the instruction buffer or of data memory (R5 "byte size: 8 bits"). -/
abbrev Byte := BitVec 8

/-- A 16-bit value: a general register, the instruction pointer, a displacement, an immediate (R5 `XLEN`, `IPLEN`). -/
abbrev Word := BitVec 16

end Sys2Proof
end

