-- ==== Sys2Proof/Config.lean ====
section
/-! DEFINITION. Sys2Proof/Config.lean: the implementation parameters of 00_scope.md R5 that are not widths.
The spec leaves no value open (93_implementation_defined.md part 1), so there is no free value here. -/

namespace Sys2Proof.Config

/-- Size of data memory in bytes: 1 MiB, addresses 0..1,048,575 (R5 `MEMSIZE`, R20). -/
def memSize : Nat := 1048576

/-- The largest effective address, 65,535 (R5 `EALEN`, 20_memory.md R35). -/
def maxAddress : Nat := 65535

/-- The longest buffer a simulation may be given (R5 `N <= 65535` for simulation, D4). -/
def maxBuffer : Nat := 65535

/-- `NO_HANDLER_POLICY` (R5, D10): what executing one of the 19 handler-less jump and loop mnemonics does. -/
inductive NoHandlerPolicy where
  /-- Advance `ip` by 2, change nothing else, report status `NO_HANDLER` (the spec's default). -/
  | advanceOnly
  /-- Refuse the step: `Refused(NoHandler)`. -/
  | refuse
deriving DecidableEq, Repr

/-- The default the spec names for `NO_HANDLER_POLICY` (R5). -/
def defaultPolicy : NoHandlerPolicy := .advanceOnly

end Sys2Proof.Config
end

