-- ==== Sys2Proof/Syntax/Fields.lean ====
section
/-! DEFINITION. Sys2Proof/Syntax/Fields.lean: the parts an instruction is built of (30_encoding.md R51 to R62), the
decoder's output record (10_state.md R25, R26) and the decoder's failures (60_exceptions.md R201 to R203). -/

namespace Sys2Proof

/-- The `W` bit: 0 is byte, 1 is word (R57). -/
inductive Width where
  | byte
  | word
deriving DecidableEq, Repr

/-- The eight general registers by word name, in index order 0 to 7 (R10). -/
inductive Reg where
  | ax | cx | dx | bx | sp | bp | si | di
deriving DecidableEq, Repr

/-- The eight base expressions of the effective-address table, in `rm` order 0 to 7 (R62). -/
inductive EaBase where
  | bxSi | bxDi | bpSi | bpDi | si | di | bp | bx
deriving DecidableEq, Repr

/-- `Memory.base` of R26: one of the eight formulas, or `DIRECT`. -/
inductive MemBase where
  | ea (b : EaBase)
  | direct
deriving DecidableEq, Repr

/-- The `Memory` case of R26. `is_direct` is true iff the base is `DIRECT`, so it is computed (`MemOperand.isDirect`).
`displacement` is read signed under a base formula and unsigned when direct. -/
structure MemOperand where
  base : MemBase
  displacement : Word
deriving DecidableEq, Repr

/-- The tagged variant `Operand` of R26. `explicitSize` is `none` where the spec says `none`; only the renderer reads it. -/
inductive Operand where
  | register (r : Reg)
  | memory (m : MemOperand)
  | immediate (value : Word) (explicitSize : Option Width)
deriving DecidableEq, Repr

/-- An operand that can be written: every destination is a register or a memory operand (R97: "no format puts an
Immediate in operands[0]"). -/
inductive Place where
  | register (r : Reg)
  | memory (m : MemOperand)
deriving DecidableEq, Repr

/-- The 24 mnemonics (R25). -/
inductive Mnemonic where
  | mov | add | sub | cmp
  | jo | jno | jb | jnb | je | jnz | jbe | ja | js | jns | jp | jnp | jl | jnl | jle | jg
  | loopnz | loopz | loop | jcxz
deriving DecidableEq, Repr

/-- The record `Instruction` of R25, the decoder's output and the executor's input. -/
structure Instruction where
  mnemonic : Mnemonic
  width : Width
  operands : List Operand
  rawOpcode : Byte
deriving DecidableEq, Repr

/-- The `D` bit of format RM: 0, the `rm` operand is the destination; 1, the `reg` field is (R57, R65). -/
inductive Dir where
  | toRm
  | toReg
deriving DecidableEq, Repr

/-- The `rm` operand as it is encoded: one constructor per addressing mode of R61. -/
inductive RmOperand where
  /-- `mod = 11`. -/
  | reg (r : Reg)
  /-- `mod = 00`, `rm = 110`: a 16-bit direct address. -/
  | direct (addr : Word)
  /-- `mod = 00`, `rm` other than `110`: no displacement. -/
  | mem0 (b : EaBase)
  /-- `mod = 01`: one signed displacement byte. -/
  | mem8 (b : EaBase) (disp : Byte)
  /-- `mod = 10`: a signed 16-bit displacement. -/
  | mem16 (b : EaBase) (disp : Word)
deriving DecidableEq, Repr

/-- The immediate bytes of an instruction, as many as are encoded (R64). -/
inductive ImmField where
  | imm8 (b : Byte)
  | imm16 (v : Word)
deriving DecidableEq, Repr

/-- The three operations of the ALU (40_datapath.md R100, R101, R104). -/
inductive AluOp where
  | add | sub | cmp
deriving DecidableEq, Repr

/-- The mnemonics that share format RM (R51). -/
inductive RmKind where
  | mov
  | alu (op : AluOp)
deriving DecidableEq, Repr

/-- The twenty members of format JL (R55, R160 to R180). -/
inductive Jump where
  | jo | jno | jb | jnb | je | jnz | jbe | ja | js | jns | jp | jnp | jl | jnl | jle | jg
  | loopnz | loopz | loop | jcxz
deriving DecidableEq, Repr

/-- What an entry of the opcode pattern-matcher selects (the last two columns of R60). -/
inductive Selector where
  | rm (k : RmKind)
  | movIm
  | aluIm
  | movAccMem
  | movMemAcc
  | aluAcc (op : AluOp)
  | movRegImm
  | jump (j : Jump)
deriving DecidableEq, Repr

/-- One entry of the ordered `(mask, value)` list of R60. -/
structure OpcodeEntry where
  mask : Byte
  value : Byte
  selects : Selector
deriving DecidableEq, Repr

/-- The fatal errors of the decoder (R201 to R203). -/
inductive DecodeError where
  /-- `DecodeFailure(NoPattern, opcode, offset)`, R201. -/
  | noPattern (opcode : Byte) (offset : Nat)
  /-- `DecodeFailure(SecondaryField, opcode, offset, modrm)`, R202. -/
  | secondaryField (opcode : Byte) (offset : Nat) (modrm : Byte)
  /-- `OutOfBounds(offset)`, R203: the offset of the first byte of the failed fetch. -/
  | outOfBounds (offset : Nat)
deriving DecidableEq, Repr

end Sys2Proof
end

