-- ==== Sys2Proof/Syntax.lean ====
section
/-! DEFINITION. Sys2Proof/Syntax.lean: the instructions, one constructor per row of spec/opcode_table.json.
A constructor holds every field its format encodes, the ones that do not change the meaning too (`D` with two
registers, the S bit of 0x82, the ignored `reg` field after 0xC6/0xC7): see notes/assumptions/6.md. -/

namespace Sys2Proof

/-- The 34 instructions of the opcode table, by family. -/
inductive Instr where
  /-- R120: `mov` register/memory with register. -/
  | movRm (d : Dir) (w : Width) (reg : Reg) (rm : RmOperand)
  /-- R121: `add` register/memory with register. -/
  | addRm (d : Dir) (w : Width) (reg : Reg) (rm : RmOperand)
  /-- R122: `sub` register/memory with register. -/
  | subRm (d : Dir) (w : Width) (reg : Reg) (rm : RmOperand)
  /-- R123: `cmp` register/memory with register. -/
  | cmpRm (d : Dir) (w : Width) (reg : Reg) (rm : RmOperand)
  /-- R130: `mov` immediate to register/memory; `ignored` is the `reg` field, which is not examined (R72). -/
  | movIm (w : Width) (ignored : BitVec 3) (rm : RmOperand) (imm : ImmField)
  /-- R131: `add` immediate with register/memory; `s` is the sign-extend bit. -/
  | addIm (s : Bool) (w : Width) (rm : RmOperand) (imm : ImmField)
  /-- R132: `sub` immediate with register/memory; `s` is the sign-extend bit. -/
  | subIm (s : Bool) (w : Width) (rm : RmOperand) (imm : ImmField)
  /-- R133: `cmp` immediate with register/memory; `s` is the sign-extend bit. -/
  | cmpIm (s : Bool) (w : Width) (rm : RmOperand) (imm : ImmField)
  /-- R140: `mov` accumulator from memory. -/
  | movAccMem (w : Width) (addr : Word)
  /-- R141: `mov` memory from accumulator. -/
  | movMemAcc (w : Width) (addr : Word)
  /-- R142: `add` immediate with accumulator. -/
  | addAcc (w : Width) (imm : ImmField)
  /-- R143: `sub` immediate with accumulator. -/
  | subAcc (w : Width) (imm : ImmField)
  /-- R144: `cmp` immediate with accumulator. -/
  | cmpAcc (w : Width) (imm : ImmField)
  /-- R150: `mov` immediate to register, short form. -/
  | movRegImm (w : Width) (reg : Reg) (imm : ImmField)
  /-- R160: `jo`. -/
  | jo (disp : Byte)
  /-- R161: `jno`. -/
  | jno (disp : Byte)
  /-- R162: `jb`. -/
  | jb (disp : Byte)
  /-- R163: `jnb`. -/
  | jnb (disp : Byte)
  /-- R164: `je`. -/
  | je (disp : Byte)
  /-- R165: `jnz`. -/
  | jnz (disp : Byte)
  /-- R166: `jbe`. -/
  | jbe (disp : Byte)
  /-- R167: `ja`. -/
  | ja (disp : Byte)
  /-- R168: `js`. -/
  | js (disp : Byte)
  /-- R169: `jns`. -/
  | jns (disp : Byte)
  /-- R170: `jp`. -/
  | jp (disp : Byte)
  /-- R171: `jnp`. -/
  | jnp (disp : Byte)
  /-- R172: `jl`. -/
  | jl (disp : Byte)
  /-- R173: `jnl`. -/
  | jnl (disp : Byte)
  /-- R174: `jle`. -/
  | jle (disp : Byte)
  /-- R175: `jg`. -/
  | jg (disp : Byte)
  /-- R177: `loopnz`. -/
  | loopnz (disp : Byte)
  /-- R178: `loopz`. -/
  | loopz (disp : Byte)
  /-- R179: `loop`. -/
  | loop (disp : Byte)
  /-- R180: `jcxz`. -/
  | jcxz (disp : Byte)
deriving DecidableEq, Repr

end Sys2Proof
end

