-- ==== Sys2Proof/WellFormed.lean ====
section
/-! DEFINITION. Sys2Proof/WellFormed.lean: which terms of `Instr` stand for an encoding. Two checks: `mod = 00` never
names `bp` alone (R61), and the number of immediate bytes is the one `W` and `S` dictate (R64). -/

namespace Sys2Proof

/-- `mod = 00`, `rm = 110` is the direct address, so "`mod = 00` with base `bp`" is no encoding (R61). -/
def RmOperand.wf : RmOperand → Bool
  | .mem0 b => b != .bp
  | .reg _ | .direct _ | .mem8 _ _ | .mem16 _ _ => true

/-- The immediate is two bytes exactly when `wide` (R64). -/
def ImmField.wf (wide : Bool) : ImmField → Bool
  | .imm8 _ => !wide
  | .imm16 _ => wide

/-- Whether an immediate is two bytes: `W = 1` and no sign-extension from one byte (R64). The formats without an `S` bit
pass `s = false`. -/
def immWide (s : Bool) (w : Width) : Bool := decide (w = .word) && !s

/-- The well-formed instructions: those some bytes decode to. -/
def Instr.wf : Instr → Bool
  | .movRm _ _ _ rm | .addRm _ _ _ rm | .subRm _ _ _ rm | .cmpRm _ _ _ rm => rm.wf
  | .movIm w _ rm imm => rm.wf && imm.wf (immWide false w)
  | .addIm s w rm imm | .subIm s w rm imm | .cmpIm s w rm imm => rm.wf && imm.wf (immWide s w)
  | .movAccMem _ _ | .movMemAcc _ _ => true
  | .addAcc w imm | .subAcc w imm | .cmpAcc w imm | .movRegImm w _ imm => imm.wf (immWide false w)
  | .jo _ | .jno _ | .jb _ | .jnb _ | .je _ | .jnz _ | .jbe _ | .ja _ => true
  | .js _ | .jns _ | .jp _ | .jnp _ | .jl _ | .jnl _ | .jle _ | .jg _ => true
  | .loopnz _ | .loopz _ | .loop _ | .jcxz _ => true

end Sys2Proof
end

