-- ==== Sys2Proof/Decode.lean ====
section
/-! DEFINITION. Sys2Proof/Decode.lean: the byte cursor (10_state.md R22), the opcode pattern-matcher (30_encoding.md R60),
the operand extractor (R61 to R66), the decoder (R59), the instruction record it yields (R25), instruction lengths
(R74), and after them the encoder, from the same formats (R51 to R55). -/

namespace Sys2Proof

/-! ### Widening and byte order -/

/-- `zext_16` of R7. -/
def zext16 (b : Byte) : Word := b.setWidth 16

/-- `sext_16` of R7. -/
def sext16 (b : Byte) : Word := if b.toNat < 128 then b.setWidth 16 else b.setWidth 16 + 0xFF00#16

/-- Bits 7:0 of a word (R31, R34). -/
def lowByte (v : Word) : Byte := v.extractLsb' 0 8

/-- Bits 15:8 of a word (R31, R34). -/
def highByte (v : Word) : Byte := v.extractLsb' 8 8

/-- `{ high, low }`: the word whose bits 15:8 are `high` and bits 7:0 are `low` (R30, R31). -/
def wordOf (low high : Byte) : Word := high ++ low

/-! ### The byte cursor -/

/-- `Fetch8(p)` of R22. -/
def fetch8 (buf : List Byte) (p : Nat) : Except DecodeError Byte :=
  match buf[p]? with
  | some b => .ok b
  | none => .error (.outOfBounds p)

/-- `Fetch16(p)` of R22: little-endian; with one byte left it raises and consumes nothing. -/
def fetch16 (buf : List Byte) (p : Nat) : Except DecodeError Word :=
  match buf[p]?, buf[p + 1]? with
  | some low, some high => .ok (wordOf low high)
  | _, _ => .error (.outOfBounds p)

/-! ### Fields -/

/-- The register field that names a register: its index (R58, R10). -/
def Reg.bits : Reg → BitVec 3
  | .ax => 0#3
  | .cx => 1#3
  | .dx => 2#3
  | .bx => 3#3
  | .sp => 4#3
  | .bp => 5#3
  | .si => 6#3
  | .di => 7#3

/-- The register a 3-bit register field names (R58). -/
def Reg.ofBits (b : BitVec 3) : Reg :=
  match b.toNat with
  | 0 => .ax
  | 1 => .cx
  | 2 => .dx
  | 3 => .bx
  | 4 => .sp
  | 5 => .bp
  | 6 => .si
  | _ => .di

/-- The `rm` value of a base expression (R62). -/
def EaBase.bits : EaBase → BitVec 3
  | .bxSi => 0#3
  | .bxDi => 1#3
  | .bpSi => 2#3
  | .bpDi => 3#3
  | .si => 4#3
  | .di => 5#3
  | .bp => 6#3
  | .bx => 7#3

/-- The base expression `EA[rm]` (R62). -/
def EaBase.ofBits (b : BitVec 3) : EaBase :=
  match b.toNat with
  | 0 => .bxSi
  | 1 => .bxDi
  | 2 => .bpSi
  | 3 => .bpDi
  | 4 => .si
  | 5 => .di
  | 6 => .bp
  | _ => .bx

/-- The `W` bit of a width (R57). -/
def Width.bit : Width → BitVec 1
  | .byte => 0#1
  | .word => 1#1

/-- The width a `W` bit selects (R57). -/
def Width.ofBit (w : Bool) : Width := if w then .word else .byte

/-- The `D` bit of a direction (R57). -/
def Dir.bit : Dir → BitVec 1
  | .toRm => 0#1
  | .toReg => 1#1

/-- The direction a `D` bit selects (R57). -/
def Dir.ofBit (d : Bool) : Dir := if d then .toReg else .toRm

/-- `mod = m[7:6]` (R56). -/
def modField (m : Byte) : BitVec 2 := m.extractLsb' 6 2

/-- `reg = m[5:3]` (R56). -/
def regField (m : Byte) : BitVec 3 := m.extractLsb' 3 3

/-- `rm = m[2:0]`; also the `reg` field of format MR (R56, R54). -/
def rmField (m : Byte) : BitVec 3 := m.extractLsb' 0 3

/-- The number of immediate bytes: 2 if `W = 1` and `S = 0`, else 1 (R64, R74). Formats without an `S` bit have `S = 0`. -/
def immLength (s : Bool) (w : Width) : Nat :=
  match w, s with
  | .word, false => 2
  | .word, true => 1
  | .byte, _ => 1

/-- The 16-bit `value` of an immediate: a lone byte is sign-extended when `W = 1` and `S = 1`, and zero-extended when
`W = 0` (R64, D13). -/
def ImmField.value (s : Bool) (w : Width) : ImmField → Word
  | .imm16 v => v
  | .imm8 b =>
    match w, s with
    | .word, true => sext16 b
    | .word, false => zext16 b
    | .byte, _ => zext16 b

/-- The number of displacement bytes, `dispLen` of R74. -/
def RmOperand.dispLength : RmOperand → Nat
  | .reg _ => 0
  | .direct _ => 2
  | .mem0 _ => 0
  | .mem8 _ _ => 1
  | .mem16 _ _ => 2

/-! ### The opcode pattern-matcher -/

/-- The mnemonic selected by the `reg` field after 0x80..0x83 (R68); the other five values are not recognised (R71). -/
def secondary (reg : BitVec 3) : Option AluOp :=
  match reg.toNat with
  | 0 => some .add
  | 5 => some .sub
  | 7 => some .cmp
  | _ => none

/-- Entries 1 and 2 of R60: the twenty exact first bytes of format JL. -/
def jumpEntries : List OpcodeEntry :=
  [ ⟨0xFF#8, 0x70#8, .jump .jo⟩, ⟨0xFF#8, 0x71#8, .jump .jno⟩, ⟨0xFF#8, 0x72#8, .jump .jb⟩,
    ⟨0xFF#8, 0x73#8, .jump .jnb⟩, ⟨0xFF#8, 0x74#8, .jump .je⟩, ⟨0xFF#8, 0x75#8, .jump .jnz⟩,
    ⟨0xFF#8, 0x76#8, .jump .jbe⟩, ⟨0xFF#8, 0x77#8, .jump .ja⟩, ⟨0xFF#8, 0x78#8, .jump .js⟩,
    ⟨0xFF#8, 0x79#8, .jump .jns⟩, ⟨0xFF#8, 0x7A#8, .jump .jp⟩, ⟨0xFF#8, 0x7B#8, .jump .jnp⟩,
    ⟨0xFF#8, 0x7C#8, .jump .jl⟩, ⟨0xFF#8, 0x7D#8, .jump .jnl⟩, ⟨0xFF#8, 0x7E#8, .jump .jle⟩,
    ⟨0xFF#8, 0x7F#8, .jump .jg⟩, ⟨0xFF#8, 0xE0#8, .jump .loopnz⟩, ⟨0xFF#8, 0xE1#8, .jump .loopz⟩,
    ⟨0xFF#8, 0xE2#8, .jump .loop⟩, ⟨0xFF#8, 0xE3#8, .jump .jcxz⟩ ]

/-- Entries 3 to 14 of R60, in its order. -/
def fieldEntries : List OpcodeEntry :=
  [ ⟨0xFE#8, 0xC6#8, .movIm⟩,
    ⟨0xFE#8, 0xA0#8, .movAccMem⟩,
    ⟨0xFE#8, 0xA2#8, .movMemAcc⟩,
    ⟨0xFE#8, 0x04#8, .aluAcc .add⟩,
    ⟨0xFE#8, 0x2C#8, .aluAcc .sub⟩,
    ⟨0xFE#8, 0x3C#8, .aluAcc .cmp⟩,
    ⟨0xFC#8, 0x88#8, .rm .mov⟩,
    ⟨0xFC#8, 0x00#8, .rm (.alu .add)⟩,
    ⟨0xFC#8, 0x28#8, .rm (.alu .sub)⟩,
    ⟨0xFC#8, 0x38#8, .rm (.alu .cmp)⟩,
    ⟨0xFC#8, 0x80#8, .aluIm⟩,
    ⟨0xF0#8, 0xB0#8, .movRegImm⟩ ]

/-- The ordered pattern list of R60, most specific masks first. -/
def opcodeTable : List OpcodeEntry := jumpEntries ++ fieldEntries

/-- Whether an entry matches an opcode byte (R59). -/
def OpcodeEntry.matchesByte (e : OpcodeEntry) (op : Byte) : Bool := op &&& e.mask == e.value

/-- The first entry that matches the opcode byte (R59). -/
def lookup (op : Byte) : Option Selector := (opcodeTable.find? (·.matchesByte op)).map (·.selects)

/-! ### The operand extractor and the decoder -/

/-- `DecodeRM(mod, rm, q)` of R61: the operand and the displacement bytes consumed. -/
def decodeRm (mod : BitVec 2) (rm : BitVec 3) (buf : List Byte) (q : Nat) : Except DecodeError (RmOperand × Nat) :=
  match mod.toNat with
  | 3 => .ok (.reg (.ofBits rm), 0)
  | 0 =>
    if rm = 6#3 then do
      let a ← fetch16 buf q
      .ok (.direct a, 2)
    else .ok (.mem0 (.ofBits rm), 0)
  | 1 => do
    let d ← fetch8 buf q
    .ok (.mem8 (.ofBits rm) d, 1)
  | _ => do
    let d ← fetch16 buf q
    .ok (.mem16 (.ofBits rm) d, 2)

/-- `n` immediate bytes at `t`, 2 or 1 (R64). -/
def fetchImm (n : Nat) (buf : List Byte) (t : Nat) : Except DecodeError ImmField :=
  match n with
  | 2 => do
    let v ← fetch16 buf t
    .ok (.imm16 v)
  | _ => do
    let b ← fetch8 buf t
    .ok (.imm8 b)

/-- The member of format RM that a kind names (R51). -/
def RmKind.instr (k : RmKind) (d : Dir) (w : Width) (reg : Reg) (rm : RmOperand) : Instr :=
  match k with
  | .mov => .movRm d w reg rm
  | .alu .add => .addRm d w reg rm
  | .alu .sub => .subRm d w reg rm
  | .alu .cmp => .cmpRm d w reg rm

/-- The add, sub or cmp of format IM (R52). -/
def AluOp.imInstr (op : AluOp) (s : Bool) (w : Width) (rm : RmOperand) (imm : ImmField) : Instr :=
  match op with
  | .add => .addIm s w rm imm
  | .sub => .subIm s w rm imm
  | .cmp => .cmpIm s w rm imm

/-- The add, sub or cmp of format ACC (R53). -/
def AluOp.accInstr (op : AluOp) (w : Width) (imm : ImmField) : Instr :=
  match op with
  | .add => .addAcc w imm
  | .sub => .subAcc w imm
  | .cmp => .cmpAcc w imm

/-- The member of format JL that a name stands for (R55). -/
def Jump.instr (j : Jump) (d : Byte) : Instr :=
  match j with
  | .jo => .jo d
  | .jno => .jno d
  | .jb => .jb d
  | .jnb => .jnb d
  | .je => .je d
  | .jnz => .jnz d
  | .jbe => .jbe d
  | .ja => .ja d
  | .js => .js d
  | .jns => .jns d
  | .jp => .jp d
  | .jnp => .jnp d
  | .jl => .jl d
  | .jnl => .jnl d
  | .jle => .jle d
  | .jg => .jg d
  | .loopnz => .loopnz d
  | .loopz => .loopz d
  | .loop => .loop d
  | .jcxz => .jcxz d

/-- `DecodeRMFamily` of 41_regmem_reg.md: `D = op[1]`, `W = op[0]`. -/
def decodeRmFamily (k : RmKind) (op : Byte) (buf : List Byte) (p : Nat) : Except DecodeError (Instr × Nat) := do
  let m ← fetch8 buf (p + 1)
  let (rm, n) ← decodeRm (modField m) (rmField m) buf (p + 2)
  .ok (k.instr (.ofBit op[1]) (.ofBit op[0]) (.ofBits (regField m)) rm, 2 + n)

/-- `DecodeIMFamily` of 42_imm_regmem.md for 0xC6 and 0xC7: `reg` ignored, never sign-extends. -/
def decodeMovIm (op : Byte) (buf : List Byte) (p : Nat) : Except DecodeError (Instr × Nat) := do
  let m ← fetch8 buf (p + 1)
  let (rm, n) ← decodeRm (modField m) (rmField m) buf (p + 2)
  let k := immLength false (.ofBit op[0])
  let imm ← fetchImm k buf (p + 2 + n)
  .ok (.movIm (.ofBit op[0]) (regField m) rm imm, 2 + n + k)

/-- `DecodeIMFamily` of 42_imm_regmem.md for 0x80..0x83: `S = op[1]`, `W = op[0]`; the secondary field is checked before
any displacement or immediate byte is fetched (R71). -/
def decodeAluIm (op : Byte) (buf : List Byte) (p : Nat) : Except DecodeError (Instr × Nat) := do
  let m ← fetch8 buf (p + 1)
  match secondary (regField m) with
  | none => .error (.secondaryField op p m)
  | some alu => do
    let (rm, n) ← decodeRm (modField m) (rmField m) buf (p + 2)
    let k := immLength op[1] (.ofBit op[0])
    let imm ← fetchImm k buf (p + 2 + n)
    .ok (alu.imInstr op[1] (.ofBit op[0]) rm imm, 2 + n + k)

/-- The decode of R142 to R144: one width bit, then the immediate. -/
def decodeAluAcc (alu : AluOp) (op : Byte) (buf : List Byte) (p : Nat) : Except DecodeError (Instr × Nat) := do
  let k := immLength false (.ofBit op[0])
  let imm ← fetchImm k buf (p + 1)
  .ok (alu.accInstr (.ofBit op[0]) imm, 1 + k)

/-- The decode of R150: `W = op[3]`, `reg = op[2:0]`. -/
def decodeMovRegImm (op : Byte) (buf : List Byte) (p : Nat) : Except DecodeError (Instr × Nat) := do
  let k := immLength false (.ofBit op[3])
  let imm ← fetchImm k buf (p + 1)
  .ok (.movRegImm (.ofBit op[3]) (.ofBits (rmField op)) imm, 1 + k)

/-- The layout that follows an opcode byte, by the entry it matched (the `case` of R59). -/
def decodeFamily (sel : Selector) (op : Byte) (buf : List Byte) (p : Nat) : Except DecodeError (Instr × Nat) :=
  match sel with
  | .rm k => decodeRmFamily k op buf p
  | .movIm => decodeMovIm op buf p
  | .aluIm => decodeAluIm op buf p
  | .movAccMem => do
    let a ← fetch16 buf (p + 1)
    .ok (.movAccMem (.ofBit op[0]) a, 3)
  | .movMemAcc => do
    let a ← fetch16 buf (p + 1)
    .ok (.movMemAcc (.ofBit op[0]) a, 3)
  | .aluAcc alu => decodeAluAcc alu op buf p
  | .movRegImm => decodeMovRegImm op buf p
  | .jump j => do
    let d ← fetch8 buf (p + 1)
    .ok (j.instr d, 2)

/-- `Decode(buf, p)` of R59: the instruction at offset `p` and `bytes_consumed`, or one fatal error. -/
def decode (buf : List Byte) (p : Nat) : Except DecodeError (Instr × Nat) := do
  let op ← fetch8 buf p
  match lookup op with
  | none => .error (.noPattern op p)
  | some sel => decodeFamily sel op buf p

/-! ### The instruction record -/

/-- `is_direct` of R26. -/
def MemOperand.isDirect (m : MemOperand) : Bool := decide (m.base = .direct)

/-- A place as an operand of the record (R26). -/
def Place.operand : Place → Operand
  | .register r => .register r
  | .memory m => .memory m

/-- The destination an operand of a record is; an immediate is none (R97). -/
def Operand.place? : Operand → Option Place
  | .register r => some (.register r)
  | .memory m => some (.memory m)
  | .immediate _ _ => none

/-- Whether an operand is a `Memory` (R109). -/
def Operand.isMemory : Operand → Bool
  | .memory _ => true
  | .register _ | .immediate _ _ => false

/-- The operand that R61 extracts from `mod` and `rm`. -/
def RmOperand.place : RmOperand → Place
  | .reg r => .register r
  | .direct a => .memory ⟨.direct, a⟩
  | .mem0 b => .memory ⟨.ea b, 0#16⟩
  | .mem8 b d => .memory ⟨.ea b, sext16 d⟩
  | .mem16 b d => .memory ⟨.ea b, d⟩

/-- `explicit_size`: the width when the destination is memory, else `none` (R26, R65). -/
def Place.sizeKeyword (p : Place) (w : Width) : Option Width :=
  match p with
  | .memory _ => some w
  | .register _ => none

/-- `operands[0]` of format RM (R65). -/
def rmDest (d : Dir) (reg : Reg) (rm : RmOperand) : Place :=
  match d with
  | .toReg => .register reg
  | .toRm => rm.place

/-- `operands[1]` of format RM (R65). -/
def rmSource (d : Dir) (reg : Reg) (rm : RmOperand) : Operand :=
  match d with
  | .toReg => rm.place.operand
  | .toRm => .register reg

/-- `operands[1]` of format IM (R65). -/
def imSource (s : Bool) (w : Width) (rm : RmOperand) (imm : ImmField) : Operand :=
  .immediate (imm.value s w) (rm.place.sizeKeyword w)

/-! ### The encoder -/

/-- A 16-bit field as two bytes, low byte first (R30). -/
def wordBytes (v : Word) : List Byte := [lowByte v, highByte v]

/-- The immediate bytes (R64). -/
def ImmField.bytes : ImmField → List Byte
  | .imm8 b => [b]
  | .imm16 v => wordBytes v

/-- The mode-reg-rm byte and the displacement bytes (R56, R61). -/
def modRmBytes (reg : BitVec 3) : RmOperand → List Byte
  | .reg r => [0b11#2 ++ reg ++ r.bits]
  | .direct a => (0b00#2 ++ reg ++ 0b110#3) :: wordBytes a
  | .mem0 b => [0b00#2 ++ reg ++ b.bits]
  | .mem8 b d => [0b01#2 ++ reg ++ b.bits, d]
  | .mem16 b d => (0b10#2 ++ reg ++ b.bits) :: wordBytes d

/-- Format RM (R51). -/
def rmBytes (opcode : BitVec 6) (d : Dir) (w : Width) (reg : Reg) (rm : RmOperand) : List Byte :=
  (opcode ++ d.bit ++ w.bit) :: modRmBytes reg.bits rm

/-- Format IM of add, sub and cmp (R52, R68). -/
def aluImBytes (reg : BitVec 3) (s : Bool) (w : Width) (rm : RmOperand) (imm : ImmField) : List Byte :=
  (0b100000#6 ++ BitVec.ofBool s ++ w.bit) :: modRmBytes reg rm ++ imm.bytes

/-- `encode i`: the bytes of an instruction, in buffer order. -/
def encode : Instr → List Byte
  | .movRm d w reg rm => rmBytes 0b100010#6 d w reg rm
  | .addRm d w reg rm => rmBytes 0b000000#6 d w reg rm
  | .subRm d w reg rm => rmBytes 0b001010#6 d w reg rm
  | .cmpRm d w reg rm => rmBytes 0b001110#6 d w reg rm
  | .movIm w ignored rm imm => (0b1100011#7 ++ w.bit) :: modRmBytes ignored rm ++ imm.bytes
  | .addIm s w rm imm => aluImBytes 0b000#3 s w rm imm
  | .subIm s w rm imm => aluImBytes 0b101#3 s w rm imm
  | .cmpIm s w rm imm => aluImBytes 0b111#3 s w rm imm
  | .movAccMem w a => (0b1010000#7 ++ w.bit) :: wordBytes a
  | .movMemAcc w a => (0b1010001#7 ++ w.bit) :: wordBytes a
  | .addAcc w imm => (0b0000010#7 ++ w.bit) :: imm.bytes
  | .subAcc w imm => (0b0010110#7 ++ w.bit) :: imm.bytes
  | .cmpAcc w imm => (0b0011110#7 ++ w.bit) :: imm.bytes
  | .movRegImm w reg imm => (0b1011#4 ++ w.bit ++ reg.bits) :: imm.bytes
  | .jo d => [0x70#8, d]
  | .jno d => [0x71#8, d]
  | .jb d => [0x72#8, d]
  | .jnb d => [0x73#8, d]
  | .je d => [0x74#8, d]
  | .jnz d => [0x75#8, d]
  | .jbe d => [0x76#8, d]
  | .ja d => [0x77#8, d]
  | .js d => [0x78#8, d]
  | .jns d => [0x79#8, d]
  | .jp d => [0x7A#8, d]
  | .jnp d => [0x7B#8, d]
  | .jl d => [0x7C#8, d]
  | .jnl d => [0x7D#8, d]
  | .jle d => [0x7E#8, d]
  | .jg d => [0x7F#8, d]
  | .loopnz d => [0xE0#8, d]
  | .loopz d => [0xE1#8, d]
  | .loop d => [0xE2#8, d]
  | .jcxz d => [0xE3#8, d]

/-! ### Length and record of an instruction -/

/-- `bytes_consumed` of R74. -/
def Instr.len : Instr → Nat
  | .movRm _ _ _ rm | .addRm _ _ _ rm | .subRm _ _ _ rm | .cmpRm _ _ _ rm => 2 + rm.dispLength
  | .movIm w _ rm _ => 2 + rm.dispLength + immLength false w
  | .addIm s w rm _ | .subIm s w rm _ | .cmpIm s w rm _ => 2 + rm.dispLength + immLength s w
  | .movAccMem _ _ | .movMemAcc _ _ => 3
  | .addAcc w _ | .subAcc w _ | .cmpAcc w _ | .movRegImm w _ _ => 1 + immLength false w
  | .jo _ | .jno _ | .jb _ | .jnb _ | .je _ | .jnz _ | .jbe _ | .ja _ => 2
  | .js _ | .jns _ | .jp _ | .jnp _ | .jl _ | .jnl _ | .jle _ | .jg _ => 2
  | .loopnz _ | .loopz _ | .loop _ | .jcxz _ => 2

/-- `raw_opcode`: the first byte of the instruction (R25). -/
def Instr.rawOpcode (i : Instr) : Byte := (encode i).headD 0#8

/-- The two-operand record (R25, R65). -/
def twoOperand (m : Mnemonic) (w : Width) (dst : Place) (src : Operand) (op : Byte) : Instruction :=
  ⟨m, w, [dst.operand, src], op⟩

/-- The record of format RM (R65). -/
def rmRecord (m : Mnemonic) (d : Dir) (w : Width) (reg : Reg) (rm : RmOperand) (op : Byte) : Instruction :=
  twoOperand m w (rmDest d reg rm) (rmSource d reg rm) op

/-- The record of format IM (R65). -/
def imRecord (m : Mnemonic) (s : Bool) (w : Width) (rm : RmOperand) (imm : ImmField) (op : Byte) : Instruction :=
  twoOperand m w rm.place (imSource s w rm imm) op

/-- The record of a register destination with an immediate (R65, formats ACC and MR). -/
def regImmRecord (m : Mnemonic) (w : Width) (r : Reg) (imm : ImmField) (op : Byte) : Instruction :=
  twoOperand m w (.register r) (.immediate (imm.value false w) none) op

/-- The record of format JL: one operand, width `byte` (R65, D18). -/
def jumpRecord (m : Mnemonic) (d : Byte) (op : Byte) : Instruction :=
  ⟨m, .byte, [.immediate (sext16 d) none], op⟩

/-- The `Instruction` record of R25 that the decoder yields for `i`. -/
def Instr.record (i : Instr) : Instruction :=
  match i with
  | .movRm d w reg rm => rmRecord .mov d w reg rm i.rawOpcode
  | .addRm d w reg rm => rmRecord .add d w reg rm i.rawOpcode
  | .subRm d w reg rm => rmRecord .sub d w reg rm i.rawOpcode
  | .cmpRm d w reg rm => rmRecord .cmp d w reg rm i.rawOpcode
  | .movIm w _ rm imm => imRecord .mov false w rm imm i.rawOpcode
  | .addIm s w rm imm => imRecord .add s w rm imm i.rawOpcode
  | .subIm s w rm imm => imRecord .sub s w rm imm i.rawOpcode
  | .cmpIm s w rm imm => imRecord .cmp s w rm imm i.rawOpcode
  | .movAccMem w a => twoOperand .mov w (.register .ax) (.memory ⟨.direct, a⟩) i.rawOpcode
  | .movMemAcc w a => twoOperand .mov w (.memory ⟨.direct, a⟩) (.register .ax) i.rawOpcode
  | .addAcc w imm => regImmRecord .add w .ax imm i.rawOpcode
  | .subAcc w imm => regImmRecord .sub w .ax imm i.rawOpcode
  | .cmpAcc w imm => regImmRecord .cmp w .ax imm i.rawOpcode
  | .movRegImm w reg imm => regImmRecord .mov w reg imm i.rawOpcode
  | .jo d => jumpRecord .jo d i.rawOpcode
  | .jno d => jumpRecord .jno d i.rawOpcode
  | .jb d => jumpRecord .jb d i.rawOpcode
  | .jnb d => jumpRecord .jnb d i.rawOpcode
  | .je d => jumpRecord .je d i.rawOpcode
  | .jnz d => jumpRecord .jnz d i.rawOpcode
  | .jbe d => jumpRecord .jbe d i.rawOpcode
  | .ja d => jumpRecord .ja d i.rawOpcode
  | .js d => jumpRecord .js d i.rawOpcode
  | .jns d => jumpRecord .jns d i.rawOpcode
  | .jp d => jumpRecord .jp d i.rawOpcode
  | .jnp d => jumpRecord .jnp d i.rawOpcode
  | .jl d => jumpRecord .jl d i.rawOpcode
  | .jnl d => jumpRecord .jnl d i.rawOpcode
  | .jle d => jumpRecord .jle d i.rawOpcode
  | .jg d => jumpRecord .jg d i.rawOpcode
  | .loopnz d => jumpRecord .loopnz d i.rawOpcode
  | .loopz d => jumpRecord .loopz d i.rawOpcode
  | .loop d => jumpRecord .loop d i.rawOpcode
  | .jcxz d => jumpRecord .jcxz d i.rawOpcode

/-! ### The host's words -/

/-- The bytes of a table word: byte 0 is bits 7..0 of `w`; bits at and above `nbits` are 0; six bytes, the longest
instruction (R74). -/
def tableBytes (nbits w : Nat) : List Byte :=
  [0, 1, 2, 3, 4, 5].map fun k => BitVec.ofNat 8 ((w % 2 ^ nbits) >>> (8 * k))

/-- The instruction the decoder reads from a word numbered as the opcode table numbers it. -/
def decodeTableWord (nbits w : Nat) : Option Instr :=
  match decode (tableBytes nbits w) 0 with
  | .ok (i, _) => some i
  | .error _ => none

end Sys2Proof
end

