-- ==== Sys2Proof/Machine/State.lean ====
section
/-! DEFINITION. Sys2Proof/Machine/State.lean: the Machine State (10_state.md), the two inputs and the one output of the
block that the host's `step` has no other place for, the reasons a step can stop (60_exceptions.md R200), and reset. -/

namespace Sys2Proof.Machine

/-- The register file: eight 16-bit registers in the order of R10. None is hardwired, banked or aliased, and there is no
byte register state (R11). -/
structure RegFile where
  ax : Word
  cx : Word
  dx : Word
  bx : Word
  sp : Word
  bp : Word
  si : Word
  di : Word
deriving DecidableEq, Repr

/-- Data memory (R20): the bytes that are not 0x00, by rising address. An unlisted address reads as 0x00, the reset
contents the spec states (R24). -/
abbrev Memory := List Host.Cell

/-- The canonical form from address `low` on: addresses rising, inside the array, no byte 0x00. -/
def Memory.wfFrom : Nat → Memory → Bool
  | _, [] => true
  | low, (a, b) :: rest => decide (low ≤ a) && decide (a < Config.memSize) && (b != 0#8) && wfFrom (a + 1) rest

/-- The canonical form of a memory. -/
def Memory.wf (m : Memory) : Bool := Memory.wfFrom 0 m

/-- The `status` output of a completed step (R111). -/
inductive StepStatus where
  /-- The instruction executed. -/
  | ok
  /-- The instruction is one of the 19 without an executor handler (R107). -/
  | noHandler
deriving DecidableEq, Repr

/-- The Machine State (`x[0..7]`, `ip`, `ZF`, `SF`, `mem`), with the block's inputs and output. -/
structure State where
  /-- General registers `x[0]` to `x[7]` (R10). -/
  regs : RegFile
  /-- Instruction pointer (R13). -/
  ip : Word
  /-- Zero flag (R16). -/
  zf : Bool
  /-- Sign flag (R16). -/
  sf : Bool
  /-- Data memory (R20). -/
  mem : Memory
  /-- Input: the instruction buffer, constant for the session (R22); notes/assumptions/2.md. -/
  buf : List Byte
  /-- Input: `NO_HANDLER_POLICY` (R5); notes/assumptions/3.md. -/
  policy : Config.NoHandlerPolicy
  /-- Output: the status of the step that gave this state (R111); no rule reads it; notes/assumptions/4.md. -/
  status : StepStatus
deriving DecidableEq, Repr

/-- Why a step ends without a next state, other than a refusal (R200). The state the host can read is the one before the
step (R209). -/
inductive Fault where
  /-- `Halt(EndOfBuffer)`, the normal end of a run and no error: raised by `step` when `ip = N` (R90, R113).
  `Host.Outcome` has no constructor for a halt; notes/assumptions/1.md. Safe. -/
  | endOfBuffer
  /-- `DecodeFailure(NoPattern, opcode, offset)`: raised by the decoder on an unrecognised first byte (R201). Safe. -/
  | noPattern (opcode : Byte) (offset : Nat)
  /-- `DecodeFailure(SecondaryField, opcode, offset, modrm)`: raised by the decoder on an unrecognised `reg` field after
  0x80..0x83 (R202). Safe. -/
  | secondaryField (opcode : Byte) (offset : Nat) (modrm : Byte)
  /-- `OutOfBounds(offset)`: raised by the decoder when the buffer ends inside an instruction (R203). Safe. -/
  | outOfBounds (offset : Nat)
  /-- `FetchOutOfBounds(ip)`: raised by `step` when `ip > N` (R204). Safe. -/
  | fetchOutOfBounds (ip : Word)
  /-- `AddressOutOfRange(ea, n)`: raised by a data access of `n` bytes at `ea` that leaves 0..65535 (R205). Safe. -/
  | addressOutOfRange (ea : Int) (n : Nat)
deriving DecidableEq, Repr

/-- Why the block gives a decoded instruction no meaning (R206). -/
inductive Refusal where
  /-- An instruction without a meaning in this model; no arm answers it. Safe. -/
  | notModelled (mnemonic : String)
  /-- `Refused(ByteWidthExecution)`: raised on mov, add, sub, cmp of width byte (R108). Safe. -/
  | byteWidthExecution
  /-- `Refused(AluMemoryOperand)`: raised on add, sub, cmp with a memory operand (R109). Safe. -/
  | aluMemoryOperand
  /-- `Refused(NoHandler)`: raised on the 19 handler-less mnemonics under the policy `refuse` (R107). Safe. -/
  | noHandler (m : Mnemonic)
  /-- Raised only by `execute`, on some instruction records that no decode yields; notes/assumptions/8.md. Safe. -/
  | malformedRecord
deriving DecidableEq, Repr

/-- The state right after reset: all zero (R24), no program loaded, the default policy. -/
def State.reset : State where
  regs := ⟨0#16, 0#16, 0#16, 0#16, 0#16, 0#16, 0#16, 0#16⟩
  ip := 0#16
  zf := false
  sf := false
  mem := []
  buf := []
  policy := Config.defaultPolicy
  status := .ok

end Sys2Proof.Machine
end

