-- ==== Sys2Proof/Machine/Ops.lean ====
section
/-! DEFINITION. Sys2Proof/Machine/Ops.lean: the named operations over registers, memory and the instruction pointer that
every meaning goes through (40_datapath.md R94; 20_memory.md R33 to R35; 10_state.md R14). The block has no trap entry and no
return from one (60_exceptions.md R209, R210): a fault ends the step with the state unwritten, so there is no such
operation here. -/

namespace Sys2Proof.Machine

/-- The outcome of one step or meaning. -/
abbrev Result := Host.Outcome State Fault Refusal

/-! ### Registers -/

/-- One register of the file (R94). -/
def RegFile.get (f : RegFile) : Reg → Word
  | .ax => f.ax
  | .cx => f.cx
  | .dx => f.dx
  | .bx => f.bx
  | .sp => f.sp
  | .bp => f.bp
  | .si => f.si
  | .di => f.di

/-- The file with one register written, whole (R94). -/
def RegFile.set (f : RegFile) (r : Reg) (v : Word) : RegFile :=
  match r with
  | .ax => { f with ax := v }
  | .cx => { f with cx := v }
  | .dx => { f with dx := v }
  | .bx => { f with bx := v }
  | .sp => { f with sp := v }
  | .bp => { f with bp := v }
  | .si => { f with si := v }
  | .di => { f with di := v }

/-- `ReadReg(s, i)` of R94. -/
def readReg (s : State) (r : Reg) : Word := s.regs.get r

/-- `WriteReg(s, i, v)` of R94. -/
def writeReg (s : State) (r : Reg) (v : Word) : State := { s with regs := s.regs.set r v }

/-! ### Instruction pointer -/

/-- `ip <- u16(ip + len)` (R14, R91). -/
def advance (len : Nat) (s : State) : State := { s with ip := s.ip + BitVec.ofNat 16 len }

/-- `ip <- u16(ip + signed16(d))` (R14, R165). -/
def branchBy (d : Word) (s : State) : State := { s with ip := s.ip + d }

/-! ### Data memory -/

/-- The byte at an address; an unlisted address holds 0x00 (R24). -/
def Memory.read : Memory → Nat → Byte
  | [], _ => 0#8
  | (a', b) :: rest, a => if a = a' then b else read rest a

/-- The memory without the cell at `a`. -/
def Memory.erase (m : Memory) (a : Nat) : Memory := m.filter fun c => c.1 != a

/-- The memory with the cell `(a, b)` put before the first larger address. -/
def Memory.insert : Memory → Nat → Byte → Memory
  | [], a, b => [(a, b)]
  | (a', b') :: rest, a, b => if a < a' then (a, b) :: (a', b') :: rest else (a', b') :: insert rest a b

/-- One byte written; writing 0x00 removes the cell, so the canonical form is kept. -/
def Memory.write (m : Memory) (a : Nat) (b : Byte) : Memory := if b = 0#8 then m.erase a else (m.erase a).insert a b

/-- The state with another data memory. -/
def setMem (s : State) (m : Memory) : State := { s with mem := m }

/-- `CheckEA(ea, n)` of R35: the cell index, or the fault. -/
def checkEA (ea : Int) (n : Nat) : Except Fault Nat :=
  if ea < 0 ∨ ea + n - 1 > Config.maxAddress then .error (.addressOutOfRange ea n) else .ok ea.toNat

/-- `MemRead(ea, 1)` of R33. No executable instruction uses it (R108). -/
def memRead8 (s : State) (ea : Int) : Except Fault Byte :=
  match checkEA ea 1 with
  | .error f => .error f
  | .ok a => .ok (s.mem.read a)

/-- `MemRead(ea, 2)` of R33, little-endian (R31). -/
def memRead16 (s : State) (ea : Int) : Except Fault Word :=
  match checkEA ea 2 with
  | .error f => .error f
  | .ok a => .ok (wordOf (s.mem.read a) (s.mem.read (a + 1)))

/-- `MemWrite(ea, 1, v)` of R34. No executable instruction uses it (R108). -/
def memWrite8 (s : State) (ea : Int) (v : Byte) : Except Fault State :=
  match checkEA ea 1 with
  | .error f => .error f
  | .ok a => .ok (setMem s (s.mem.write a v))

/-- `MemWrite(ea, 2, v)` of R34, little-endian (R31). -/
def memWrite16 (s : State) (ea : Int) (v : Word) : Except Fault State :=
  match checkEA ea 2 with
  | .error f => .error f
  | .ok a => .ok (setMem s ((s.mem.write a (lowByte v)).write (a + 1) (highByte v)))

/-! ### Completed steps -/

/-- The state with the `status` output driven (R111). -/
def setStatus (s : State) (st : StepStatus) : State := { s with status := st }

/-- `Next(s2, status)` (R91, R111). -/
def finish (st : StepStatus) (s : State) : Result := .next (setStatus s st)

/-- The step of a mnemonic without an executor handler (R107, R176): `ip` advances past the two bytes, nothing else
changes, status `NO_HANDLER`; or a refusal under the policy `refuse`. -/
def noHandlerStep (m : Mnemonic) (s : State) : Result :=
  match s.policy with
  | .advanceOnly => finish .noHandler (advance 2 s)
  | .refuse => .refused (.noHandler m)

end Sys2Proof.Machine
end

