-- ==== Sys2Proof/Machine/Flags.lean ====
section
/-! DEFINITION. Sys2Proof/Machine/Flags.lean: the ALU and the flag update (40_datapath.md R100 to R104), and the flag
bitmask (10_state.md R17). -/

namespace Sys2Proof.Machine

/-- `AluAdd(a, b) = u16(a + b)` (R100). -/
def aluAdd (a b : Word) : Word := a + b

/-- `AluSub(a, b) = u16(a - b)` (R101). -/
def aluSub (a b : Word) : Word := a - b

/-- The 16-bit result an operation computes from destination `a` and source `b` (R100, R101, R104). -/
def aluResult (op : AluOp) (a b : Word) : Word :=
  match op with
  | .add => aluAdd a b
  | .sub => aluSub a b
  | .cmp => aluSub a b

/-- `SetFlags(s, r)` (R102): both flags, from the result alone. -/
def setFlags (s : State) (r : Word) : State := { s with zf := decide (r = 0#16), sf := r.msb }

/-- The result written back, then the flags; `cmp` writes no register (R93, R104). `s1` is the state being built. -/
def aluCommit (op : AluOp) (dst : Reg) (a b : Word) (s1 : State) : State :=
  let r := aluResult op a b
  match op with
  | .add => setFlags (writeReg s1 dst r) r
  | .sub => setFlags (writeReg s1 dst r) r
  | .cmp => setFlags s1 r

/-- `Mask(s) = { SF, ZF }`: bit 0 is `ZF`, bit 1 is `SF` (R17, R112). -/
def flagMask (s : State) : BitVec 2 := BitVec.ofBool s.sf ++ BitVec.ofBool s.zf

/-- The letters of the set flags, `Z` and `S` (R17). That `Z` stands first is the model's (DESIGN CHOICE,
notes/assumptions/21.md). -/
def flagLetters (s : State) : List Char := (if s.zf then ['Z'] else []) ++ (if s.sf then ['S'] else [])

end Sys2Proof.Machine
end

