-- ==== Sys2Proof/Machine/Operands.lean ====
section
/-! DEFINITION. Sys2Proof/Machine/Operands.lean: effective addresses, operand read and operand write (40_datapath.md R95 to
R97), and the two-operand executions over them that the families share (R91, R106). -/

namespace Sys2Proof.Machine

/-- The sum of the base registers of a table entry, read unsigned and not truncated (R62, R96). -/
def baseSum (b : EaBase) (s : State) : Nat :=
  match b with
  | .bxSi => (readReg s .bx).toNat + (readReg s .si).toNat
  | .bxDi => (readReg s .bx).toNat + (readReg s .di).toNat
  | .bpSi => (readReg s .bp).toNat + (readReg s .si).toNat
  | .bpDi => (readReg s .bp).toNat + (readReg s .di).toNat
  | .si => (readReg s .si).toNat
  | .di => (readReg s .di).toNat
  | .bp => (readReg s .bp).toNat
  | .bx => (readReg s .bx).toNat

/-- `EA(m, s)` of R96, an exact integer: a direct address is unsigned, a displacement is `signed16` (two's complement). -/
def effectiveAddress (m : MemOperand) (s : State) : Int :=
  match m.base with
  | .direct => m.displacement.toNat
  | .ea b => baseSum b s + m.displacement.toInt

/-- `ReadOperand(o, s)` of R95. -/
def readOperand (o : Operand) (s : State) : Except Fault Word :=
  match o with
  | .register r => .ok (readReg s r)
  | .immediate v _ => .ok v
  | .memory m => memRead16 s (effectiveAddress m s)

/-- `WriteOperand(o, v, s, s1)` of R97: the address is computed in `s`, the state before the instruction. -/
def writePlace (p : Place) (v : Word) (s s1 : State) : Except Fault State :=
  match p with
  | .register r => .ok (writeReg s1 r v)
  | .memory m => memWrite16 s1 (effectiveAddress m s) v

/-- A `mov` of one operand to another (R91, R106, R120, R130): width first (R208), then the read, then the write; no flag. -/
def movTo (w : Width) (dst : Place) (src : Operand) (len : Nat) (s : State) : Result :=
  match w with
  | .byte => .refused .byteWidthExecution
  | .word =>
    match readOperand src s with
    | .error f => .fault f
    | .ok v =>
      match writePlace dst v s (advance len s) with
      | .error f => .fault f
      | .ok s2 => finish .ok s2

/-- An `add`, `sub` or `cmp` (R91, R106, R121 to R123, R131 to R133): width first, then the memory refusal (R208), then
the register and immediate forms. -/
def aluTo (op : AluOp) (w : Width) (dst : Place) (src : Operand) (len : Nat) (s : State) : Result :=
  match w with
  | .byte => .refused .byteWidthExecution
  | .word =>
    match dst, src with
    | .register r, .register q => finish .ok (aluCommit op r (readReg s r) (readReg s q) (advance len s))
    | .register r, .immediate v _ => finish .ok (aluCommit op r (readReg s r) v (advance len s))
    | .register _, .memory _ => .refused .aluMemoryOperand
    | .memory _, .register _ => .refused .aluMemoryOperand
    | .memory _, .immediate _ _ => .refused .aluMemoryOperand
    | .memory _, .memory _ => .refused .aluMemoryOperand

/-- An `add`, `sub` or `cmp` of an immediate with the accumulator `x[0]` (R142 to R144). -/
def aluAcc (op : AluOp) (w : Width) (imm : ImmField) (len : Nat) (s : State) : Result :=
  match w with
  | .byte => .refused .byteWidthExecution
  | .word => finish .ok (aluCommit op .ax (readReg s .ax) (imm.value false w) (advance len s))

end Sys2Proof.Machine
end

