-- ==== Sys2Proof/Machine/Accumulator.lean ====
section
/-! DEFINITION. Sys2Proof/Machine/Accumulator.lean: family ACC, accumulator shorthand (43_accumulator.md R140 to R144). -/

namespace Sys2Proof.Machine

/-- R140: `x[0]` from the word at the direct address. -/
def execMovAccMem (w : Width) (addr : Word) (s : State) : Result :=
  match w with
  | .byte => .refused .byteWidthExecution
  | .word =>
    match memRead16 s addr.toNat with
    | .error f => .fault f
    | .ok v => finish .ok (writeReg (advance 3 s) .ax v)

/-- R141: the word at the direct address from `x[0]`. -/
def execMovMemAcc (w : Width) (addr : Word) (s : State) : Result :=
  match w with
  | .byte => .refused .byteWidthExecution
  | .word =>
    match memWrite16 (advance 3 s) addr.toNat (readReg s .ax) with
    | .error f => .fault f
    | .ok s2 => finish .ok s2

/-- R142. -/
def execAddAcc (w : Width) (imm : ImmField) (s : State) : Result := aluAcc .add w imm (1 + immLength false w) s

/-- R143. -/
def execSubAcc (w : Width) (imm : ImmField) (s : State) : Result := aluAcc .sub w imm (1 + immLength false w) s

/-- R144. -/
def execCmpAcc (w : Width) (imm : ImmField) (s : State) : Result := aluAcc .cmp w imm (1 + immLength false w) s

end Sys2Proof.Machine
end

