-- ==== Sys2Proof/Machine/ImmRegMem.lean ====
section
/-! DEFINITION. Sys2Proof/Machine/ImmRegMem.lean: family IM, immediate to register/memory (42_imm_regmem.md R130 to R133). -/

namespace Sys2Proof.Machine

/-- R130. The `reg` field is not examined (R72), so it is no argument. -/
def execMovIm (w : Width) (rm : RmOperand) (imm : ImmField) (s : State) : Result :=
  movTo w rm.place (imSource false w rm imm) (2 + rm.dispLength + immLength false w) s

/-- R131; `sx` is the `S` bit. -/
def execAddIm (sx : Bool) (w : Width) (rm : RmOperand) (imm : ImmField) (s : State) : Result :=
  aluTo .add w rm.place (imSource sx w rm imm) (2 + rm.dispLength + immLength sx w) s

/-- R132; `sx` is the `S` bit. -/
def execSubIm (sx : Bool) (w : Width) (rm : RmOperand) (imm : ImmField) (s : State) : Result :=
  aluTo .sub w rm.place (imSource sx w rm imm) (2 + rm.dispLength + immLength sx w) s

/-- R133; `sx` is the `S` bit. -/
def execCmpIm (sx : Bool) (w : Width) (rm : RmOperand) (imm : ImmField) (s : State) : Result :=
  aluTo .cmp w rm.place (imSource sx w rm imm) (2 + rm.dispLength + immLength sx w) s

end Sys2Proof.Machine
end

