-- ==== Sys2Proof/Machine/Jumps.lean ====
section
/-! DEFINITION. Sys2Proof/Machine/Jumps.lean: family JL, conditional jumps and loop control (45_jumps_loops.md R160 to R180).
Only `jnz` has an executor handler; each of the 19 others is the step of R176, whatever the displacement, the flags and
`cx` hold. -/

namespace Sys2Proof.Machine

/-- The relative branch of `jnz` on the sign-extended displacement (R165): taken iff `ZF = 0`, added after the advance. -/
def branchIfNotZero (d : Word) (s : State) : Result :=
  finish .ok (if s.zf then advance 2 s else branchBy d (advance 2 s))

/-- R160: no executor handler. -/
def execJo (s : State) : Result := noHandlerStep .jo s

/-- R161: no executor handler. -/
def execJno (s : State) : Result := noHandlerStep .jno s

/-- R162: no executor handler. -/
def execJb (s : State) : Result := noHandlerStep .jb s

/-- R163: no executor handler. -/
def execJnb (s : State) : Result := noHandlerStep .jnb s

/-- R164: no executor handler. -/
def execJe (s : State) : Result := noHandlerStep .je s

/-- R165. -/
def execJnz (disp : Byte) (s : State) : Result := branchIfNotZero (sext16 disp) s

/-- R166: no executor handler. -/
def execJbe (s : State) : Result := noHandlerStep .jbe s

/-- R167: no executor handler. -/
def execJa (s : State) : Result := noHandlerStep .ja s

/-- R168: no executor handler. -/
def execJs (s : State) : Result := noHandlerStep .js s

/-- R169: no executor handler. -/
def execJns (s : State) : Result := noHandlerStep .jns s

/-- R170: no executor handler. -/
def execJp (s : State) : Result := noHandlerStep .jp s

/-- R171: no executor handler. -/
def execJnp (s : State) : Result := noHandlerStep .jnp s

/-- R172: no executor handler. -/
def execJl (s : State) : Result := noHandlerStep .jl s

/-- R173: no executor handler. -/
def execJnl (s : State) : Result := noHandlerStep .jnl s

/-- R174: no executor handler. -/
def execJle (s : State) : Result := noHandlerStep .jle s

/-- R175: no executor handler. -/
def execJg (s : State) : Result := noHandlerStep .jg s

/-- R177: no executor handler. -/
def execLoopnz (s : State) : Result := noHandlerStep .loopnz s

/-- R178: no executor handler. -/
def execLoopz (s : State) : Result := noHandlerStep .loopz s

/-- R179: no executor handler. -/
def execLoop (s : State) : Result := noHandlerStep .loop s

/-- R180: no executor handler. -/
def execJcxz (s : State) : Result := noHandlerStep .jcxz s

end Sys2Proof.Machine
end

