-- ==== Sys2Proof/Machine/MovImm.lean ====
section
/-! DEFINITION. Sys2Proof/Machine/MovImm.lean: family MR, mov immediate to register, short form (44_mov_imm_reg.md R150). -/

namespace Sys2Proof.Machine

/-- R150. -/
def execMovRegImm (w : Width) (reg : Reg) (imm : ImmField) (s : State) : Result :=
  match w with
  | .byte => .refused .byteWidthExecution
  | .word => finish .ok (writeReg (advance (1 + immLength false w) s) reg (imm.value false w))

end Sys2Proof.Machine
end

