-- ==== Sys2Proof/Machine/RegMem.lean ====
section
/-! DEFINITION. Sys2Proof/Machine/RegMem.lean: family RM, register/memory with register (41_regmem_reg.md R120 to R123). -/

namespace Sys2Proof.Machine

/-- R120. -/
def execMovRm (d : Dir) (w : Width) (reg : Reg) (rm : RmOperand) (s : State) : Result :=
  movTo w (rmDest d reg rm) (rmSource d reg rm) (2 + rm.dispLength) s

/-- R121. -/
def execAddRm (d : Dir) (w : Width) (reg : Reg) (rm : RmOperand) (s : State) : Result :=
  aluTo .add w (rmDest d reg rm) (rmSource d reg rm) (2 + rm.dispLength) s

/-- R122. -/
def execSubRm (d : Dir) (w : Width) (reg : Reg) (rm : RmOperand) (s : State) : Result :=
  aluTo .sub w (rmDest d reg rm) (rmSource d reg rm) (2 + rm.dispLength) s

/-- R123. -/
def execCmpRm (d : Dir) (w : Width) (reg : Reg) (rm : RmOperand) (s : State) : Result :=
  aluTo .cmp w (rmDest d reg rm) (rmSource d reg rm) (2 + rm.dispLength) s

end Sys2Proof.Machine
end

