-- ==== Sys2Proof/Machine/Dispatch.lean ====
section
/-! DEFINITION. Sys2Proof/Machine/Dispatch.lean: one arm per instruction. -/

namespace Sys2Proof.Machine

/-- One instruction on a state. Its length is the instruction's own (notes/assumptions/5.md). -/
def exec (i : Instr) (s : State) : Host.Outcome State Fault Refusal :=
  match i with
  -- family RM
  | .movRm d w reg rm => Sys2Proof.Machine.execMovRm d w reg rm s
  | .addRm d w reg rm => Sys2Proof.Machine.execAddRm d w reg rm s
  | .subRm d w reg rm => Sys2Proof.Machine.execSubRm d w reg rm s
  | .cmpRm d w reg rm => Sys2Proof.Machine.execCmpRm d w reg rm s
  -- family IM
  | .movIm w _ rm imm => Sys2Proof.Machine.execMovIm w rm imm s
  | .addIm sx w rm imm => Sys2Proof.Machine.execAddIm sx w rm imm s
  | .subIm sx w rm imm => Sys2Proof.Machine.execSubIm sx w rm imm s
  | .cmpIm sx w rm imm => Sys2Proof.Machine.execCmpIm sx w rm imm s
  -- family ACC
  | .movAccMem w addr => Sys2Proof.Machine.execMovAccMem w addr s
  | .movMemAcc w addr => Sys2Proof.Machine.execMovMemAcc w addr s
  | .addAcc w imm => Sys2Proof.Machine.execAddAcc w imm s
  | .subAcc w imm => Sys2Proof.Machine.execSubAcc w imm s
  | .cmpAcc w imm => Sys2Proof.Machine.execCmpAcc w imm s
  -- family MR
  | .movRegImm w reg imm => Sys2Proof.Machine.execMovRegImm w reg imm s
  -- family JL
  | .jo _ => Sys2Proof.Machine.execJo s
  | .jno _ => Sys2Proof.Machine.execJno s
  | .jb _ => Sys2Proof.Machine.execJb s
  | .jnb _ => Sys2Proof.Machine.execJnb s
  | .je _ => Sys2Proof.Machine.execJe s
  | .jnz disp => Sys2Proof.Machine.execJnz disp s
  | .jbe _ => Sys2Proof.Machine.execJbe s
  | .ja _ => Sys2Proof.Machine.execJa s
  | .js _ => Sys2Proof.Machine.execJs s
  | .jns _ => Sys2Proof.Machine.execJns s
  | .jp _ => Sys2Proof.Machine.execJp s
  | .jnp _ => Sys2Proof.Machine.execJnp s
  | .jl _ => Sys2Proof.Machine.execJl s
  | .jnl _ => Sys2Proof.Machine.execJnl s
  | .jle _ => Sys2Proof.Machine.execJle s
  | .jg _ => Sys2Proof.Machine.execJg s
  | .loopnz _ => Sys2Proof.Machine.execLoopnz s
  | .loopz _ => Sys2Proof.Machine.execLoopz s
  | .loop _ => Sys2Proof.Machine.execLoop s
  | .jcxz _ => Sys2Proof.Machine.execJcxz s

end Sys2Proof.Machine
end

