-- ==== Sys2Proof/Machine/Fetch.lean ====
section
/-! DEFINITION. Sys2Proof/Machine/Fetch.lean: what a step does before it executes (40_datapath.md R90), and placing an
instruction in the buffer. -/

namespace Sys2Proof.Machine

/-- A decode error as the fault that ends the step (R201 to R203). -/
def Fault.ofDecode : DecodeError → Fault
  | .noPattern op p => .noPattern op p
  | .secondaryField op p m => .secondaryField op p m
  | .outOfBounds q => .outOfBounds q

/-- The halt test, the fetch bound and the decode of R90, in its order (R208). -/
def fetchDecode (s : State) : Except Fault Instr :=
  if s.ip.toNat = s.buf.length then .error .endOfBuffer
  else if s.ip.toNat > s.buf.length then .error (.fetchOutOfBounds s.ip)
  else
    match decode s.buf s.ip.toNat with
    | .error e => .error (.ofDecode e)
    | .ok (i, _) => .ok i

/-- The buffer with `bytes` from offset `p` on; a gap before `p` is filled with zeros. -/
def placeAt (buf : List Byte) (p : Nat) (bytes : List Byte) : List Byte :=
  buf.take p ++ List.replicate (p - buf.length) 0#8 ++ bytes ++ buf.drop (p + bytes.length)

end Sys2Proof.Machine
end

