-- ==== Sys2Proof/Machine/Step.lean ====
section
/-! DEFINITION. Sys2Proof/Machine/Step.lean: one step (40_datapath.md R90), and the host's way to place an instruction. -/

namespace Sys2Proof.Machine

/-- `Step(buf, s)` of R90. -/
def step (s : State) : Host.Outcome State Fault Refusal :=
  match fetchDecode s with
  | .error f => .fault f
  | .ok i => exec i s

/-- `s` with the instruction word stored in the buffer at `ip`, where the next step fetches it (notes/assumptions/2.md). -/
def State.withFetchWord (s : State) (nbits w : Nat) : State :=
  { s with buf := placeAt s.buf s.ip.toNat (tableBytes nbits w) }

end Sys2Proof.Machine
end

