-- ==== Sys2Proof/Machine/DecodePass.lean ====
section
/-! DEFINITION. Sys2Proof/Machine/DecodePass.lean: the decode-only pass `DecodeAll` (40_datapath.md R92): a linear sweep with
its own offset (10_state.md R23) and no Machine State; jumps are not followed; the buffer may have any length. -/

namespace Sys2Proof.Machine

/-- The state of a decode-only pass: the buffer and the current offset `p`, a natural number (R23). -/
structure DecodePass where
  buf : List Byte
  p : Nat
deriving DecidableEq, Repr

/-- A pass at its start: offset 0 (R24). -/
def DecodePass.start (buf : List Byte) : DecodePass := ⟨buf, 0⟩

/-- What one turn of the loop of R92 gives. -/
inductive PassOutcome where
  /-- `yield (I, len)`, and the pass goes on at `p + len`. -/
  | yields (i : Instr) (len : Nat) (rest : DecodePass)
  /-- The offset has reached the end of the buffer. -/
  | done
  /-- A decode error: nothing more is produced. -/
  | failed (e : DecodeError)
deriving DecidableEq, Repr

/-- One turn of the loop of R92. -/
def DecodePass.turn (d : DecodePass) : PassOutcome :=
  if d.p < d.buf.length then
    match decode d.buf d.p with
    | .error e => .failed e
    | .ok (i, len) => .yields i len ⟨d.buf, d.p + len⟩
  else .done

/-- At most `fuel` turns: the instructions yielded with their lengths, and the error that stopped the pass, if one did. -/
def DecodePass.run : Nat → DecodePass → List (Instr × Nat) × Option DecodeError
  | 0, _ => ([], none)
  | fuel + 1, d =>
    match d.turn with
    | .done => ([], none)
    | .failed e => ([], some e)
    | .yields i len rest =>
      let (ys, e) := DecodePass.run fuel rest
      ((i, len) :: ys, e)

/-- `DecodeAll(buf)` of R92. As many turns as there are bytes are enough, since an instruction has at least two (R74). -/
def decodeAll (buf : List Byte) : List (Instr × Nat) × Option DecodeError := (DecodePass.start buf).run buf.length

end Sys2Proof.Machine
end

