-- ==== Sys2Proof/Machine/Execute.lean ====
section
/-! DEFINITION. Sys2Proof/Machine/Execute.lean: the executor's entry point over the instruction record and its length
(40_datapath.md R91, R106, R114), written from those rules and apart from the per-instruction meanings. -/

namespace Sys2Proof.Machine

/-- How R91 and R106 divide the 24 mnemonics. -/
inductive MnemonicClass where
  | mov
  | alu (op : AluOp)
  | jnz
  | noHandler
deriving DecidableEq, Repr

/-- The class of a mnemonic (R91): only `jnz` of the jumps and loops has a handler. -/
def mnemonicClass (m : Mnemonic) : MnemonicClass :=
  match m with
  | .mov => .mov
  | .add => .alu .add
  | .sub => .alu .sub
  | .cmp => .alu .cmp
  | .jnz => .jnz
  | .jo | .jno | .jb | .jnb | .je | .jbe | .ja | .js | .jns | .jp | .jnp | .jl | .jnl | .jle | .jg => .noHandler
  | .loopnz | .loopz | .loop | .jcxz => .noHandler

/-- `Execute(I, len, s)` of R91. Reads see `s`, writes build on `s` with `ip` advanced (R93). What it does on a record that no
decode yields is the model's own (DESIGN CHOICE, notes/assumptions/8.md): a wrong operand count, an immediate destination or a
`jnz` operand that is no immediate is refused as `malformedRecord`; any other follows the rule's text, so a `mov` with two
memory operands (none exists, R99) makes one read and one write. -/
def execute (I : Instruction) (len : Nat) (s : State) : Result :=
  let s1 := advance len s
  match mnemonicClass I.mnemonic, I.operands with
  | .mov, [dst, src] =>
    match dst.place?, I.width with
    | none, _ => .refused .malformedRecord
    | some _, .byte => .refused .byteWidthExecution
    | some p, .word =>
      match readOperand src s with
      | .error f => .fault f
      | .ok v =>
        match writePlace p v s s1 with
        | .error f => .fault f
        | .ok s2 => finish .ok s2
  | .alu op, [dst, src] =>
    match dst, I.width with
    | .immediate _ _, _ => .refused .malformedRecord
    | _, .byte => .refused .byteWidthExecution
    | .memory _, .word => .refused .aluMemoryOperand
    | .register r, .word =>
      if src.isMemory then .refused .aluMemoryOperand
      else
        match readOperand src s with
        | .error f => .fault f
        | .ok b => finish .ok (aluCommit op r (readReg s r) b s1)
  | .jnz, [.immediate d _] => finish .ok (if s.zf = false then branchBy d s1 else s1)
  | .noHandler, [_] =>
    match s.policy with
    | .refuse => .refused (.noHandler I.mnemonic)
    | .advanceOnly => finish .noHandler s1
  | .mov, _ => .refused .malformedRecord
  | .alu _, _ => .refused .malformedRecord
  | .jnz, _ => .refused .malformedRecord
  | .noHandler, _ => .refused .malformedRecord

end Sys2Proof.Machine
end

