-- ==== Sys2Proof/Machine/Render.lean ====
section
/-! DEFINITION. Sys2Proof/Machine/Render.lean: the renderer, a pure function from an instruction record to text
(30_encoding.md R76 to R81). The listing header (R82) has no text in the spec and is not modelled. -/

namespace Sys2Proof.Machine

/-- Decimal digits, most significant first, `fuel` at most; without leading zeros. -/
def decimalDigits : Nat → Nat → List Char
  | 0, _ => []
  | fuel + 1, n =>
    let digit := Char.ofNat (48 + n % 10)
    if n < 10 then [digit] else decimalDigits fuel (n / 10) ++ [digit]

/-- A natural number below 100,000 in decimal. -/
def renderNat (n : Nat) : String := String.ofList (decimalDigits 5 n)

/-- The decimal value of `signed16(v)`, with a leading `-` when negative (R79, R81). -/
def renderSigned (v : Word) : String :=
  if v.toInt < 0 then "-" ++ renderNat v.toInt.natAbs else renderNat v.toInt.natAbs

/-- The register name tables of R10 (R77). -/
def regText (w : Width) (r : Reg) : String :=
  match w, r with
  | .word, .ax => "ax"
  | .word, .cx => "cx"
  | .word, .dx => "dx"
  | .word, .bx => "bx"
  | .word, .sp => "sp"
  | .word, .bp => "bp"
  | .word, .si => "si"
  | .word, .di => "di"
  | .byte, .ax => "al"
  | .byte, .cx => "cl"
  | .byte, .dx => "dl"
  | .byte, .bx => "bl"
  | .byte, .sp => "ah"
  | .byte, .bp => "ch"
  | .byte, .si => "dh"
  | .byte, .di => "bh"

/-- The base expression texts of R62, spaced as R78. -/
def baseText (b : EaBase) : String :=
  match b with
  | .bxSi => "bx + si"
  | .bxDi => "bx + di"
  | .bpSi => "bp + si"
  | .bpDi => "bp + di"
  | .si => "si"
  | .di => "di"
  | .bp => "bp"
  | .bx => "bx"

/-- The displacement term: omitted when zero, `- abs` when negative, `+ value` when positive (R78). -/
def renderDisplacement (d : Word) : String :=
  if d = 0#16 then ""
  else if d.toInt < 0 then " - " ++ renderNat d.toInt.natAbs
  else " + " ++ renderNat d.toInt.natAbs

/-- A memory operand (R78). -/
def renderMemory (m : MemOperand) : String :=
  match m.base with
  | .direct => "[" ++ renderNat m.displacement.toNat ++ "]"
  | .ea b => "[" ++ baseText b ++ renderDisplacement m.displacement ++ "]"

/-- The size keyword before an immediate stored to memory (R79). -/
def renderSize (size : Option Width) : String :=
  match size with
  | none => ""
  | some .byte => "byte "
  | some .word => "word "

/-- One operand (R77 to R79). -/
def renderOperand (w : Width) (o : Operand) : String :=
  match o with
  | .register r => regText w r
  | .memory m => renderMemory m
  | .immediate v size => renderSize size ++ renderSigned v

/-- Mnemonics in lower case (R76). -/
def mnemonicText (m : Mnemonic) : String :=
  match m with
  | .mov => "mov"
  | .add => "add"
  | .sub => "sub"
  | .cmp => "cmp"
  | .jo => "jo"
  | .jno => "jno"
  | .jb => "jb"
  | .jnb => "jnb"
  | .je => "je"
  | .jnz => "jnz"
  | .jbe => "jbe"
  | .ja => "ja"
  | .js => "js"
  | .jns => "jns"
  | .jp => "jp"
  | .jnp => "jnp"
  | .jl => "jl"
  | .jnl => "jnl"
  | .jle => "jle"
  | .jg => "jg"
  | .loopnz => "loopnz"
  | .loopz => "loopz"
  | .loop => "loop"
  | .jcxz => "jcxz"

/-- Operands in order, separated by a comma and one space (R76). -/
def renderOperands (w : Width) : List Operand → String
  | [] => ""
  | [o] => renderOperand w o
  | o :: rest => renderOperand w o ++ ", " ++ renderOperands w rest

/-- `render(Instruction)` of R114: one line (R76). -/
def render (I : Instruction) : String := mnemonicText I.mnemonic ++ " " ++ renderOperands I.width I.operands

end Sys2Proof.Machine
end

