-- ==== Sys2Proof/Machine/Report.lean ====
section
/-! DEFINITION. Sys2Proof/Machine/Report.lean: what the block outputs: the diff of a step (40_datapath.md R112), the four
outcomes of a step with their data (60_exceptions.md R200), and the content of the final-state block (R113). The texts of
these outputs are given nowhere in the spec (00_scope.md R4) and are not modelled. -/

namespace Sys2Proof.Machine

/-- The registers in index order (R10). -/
def allRegs : List Reg := [.ax, .cx, .dx, .bx, .sp, .bp, .si, .di]

/-- The structured diff of R112, in its order: changed registers (old, new), `ip` if changed, flag mask if changed. -/
structure Diff where
  regs : List (Reg × Word × Word)
  ip : Option (Word × Word)
  flags : Option (BitVec 2 × BitVec 2)
deriving DecidableEq, Repr

/-- A changed item (old, new); nothing where it did not change (R112 "Only changed items are reported"). -/
def changed (α : Type) [DecidableEq α] (old new : α) : Option (α × α) := if old = new then none else some (old, new)

/-- `Diff(s, t)` of R112. Memory is no part of it. -/
def diff (s t : State) : Diff where
  regs := allRegs.filterMap fun r => (changed Word (readReg s r) (readReg t r)).map fun c => (r, c)
  ip := changed Word s.ip t.ip
  flags := changed (BitVec 2) (flagMask s) (flagMask t)

/-- The outcomes of a step as R200 names them. -/
inductive StepReport where
  | next (t : State) (status : StepStatus) (d : Diff)
  | halt
  | fault (f : Fault)
  | refused (r : Refusal)
deriving DecidableEq, Repr

/-- The full report of one step from `s` (R90, R200): `Halt` apart from the faults. -/
def stepReport (s : State) : StepReport :=
  match step s with
  | .next t => .next t t.status (diff s t)
  | .fault .endOfBuffer => .halt
  | .fault f => .fault f
  | .refused r => .refused r

/-- The content of the final-state block (R113): registers that are not zero, `ip`, and the set flags. -/
structure FinalReport where
  regs : List (Reg × Word)
  ip : Word
  flags : List Char
deriving DecidableEq, Repr

/-- The final-state report of a state (R113). Memory is not reported. R113 gives no order: that the registers stand in index
order is the model's (DESIGN CHOICE, notes/assumptions/21.md). -/
def finalReport (s : State) : FinalReport where
  regs := allRegs.filterMap fun r => if readReg s r = 0#16 then none else some (r, readReg s r)
  ip := s.ip
  flags := flagLetters s

end Sys2Proof.Machine
end

