-- ==== Sys2Proof/Machine/Session.lean ====
section
/-! DEFINITION. Sys2Proof/Machine/Session.lean: a session, from the host's load to its end (40_datapath.md R113;
60_exceptions.md R209, R214; 70_reset_and_hazards.md R231). -/

namespace Sys2Proof.Machine

/-- The state a session starts from: reset, with the program the host supplies as the whole buffer (R231). -/
def State.load (program : List Byte) : State := { State.reset with buf := program }

/-- Where a session stands: still running, ended normally, or ended by a fault or refusal. The state is the one the host
can read; after a fault or refusal it is the state before that step (R209) and no final state (R210). -/
inductive SessionEnd where
  | running (s : State)
  | halted (s : State)
  | faulted (s : State) (f : Fault)
  | refused (s : State) (r : Refusal)
deriving DecidableEq, Repr

/-- At most `fuel` completed steps (R113, R215). -/
def runSession : Nat → State → SessionEnd
  | 0, s => .running s
  | fuel + 1, s =>
    match stepReport s with
    | .next t _ _ => runSession fuel t
    | .halt => .halted s
    | .fault f => .faulted s f
    | .refused r => .refused s r

end Sys2Proof.Machine
end

