-- ==== Sys2Proof/Safety.lean ====
section
/-! DEFINITION. Sys2Proof/Safety.lean: the terms the claims are stated in: what two states have in common, the invariant of
the machine, the kinds of instruction the whole-machine rules speak of, and runs. -/

namespace Sys2Proof.Machine

/-! ### What a step leaves alone -/

/-- No register differs. -/
def SameRegs (s t : State) : Prop := ∀ r : Reg, readReg t r = readReg s r

/-- No register but `d` differs. -/
def SameRegsBut (d : Reg) (s t : State) : Prop := ∀ r : Reg, r ≠ d → readReg t r = readReg s r

/-- Neither flag differs. -/
def SameFlags (s t : State) : Prop := t.zf = s.zf ∧ t.sf = s.sf

/-- Every byte of memory reads the same. -/
def SameMem (s t : State) : Prop := ∀ a : Nat, t.mem.read a = s.mem.read a

/-- The two bytes at `a` hold `v`, low byte first, and every other byte of memory reads the same. -/
def WordStoredAt (a : Nat) (v : Word) (s t : State) : Prop :=
  (t.mem.read a).toNat = v.toNat % 256 ∧ (t.mem.read (a + 1)).toNat = v.toNat / 256 ∧
    ∀ b : Nat, b ≠ a → b ≠ a + 1 → t.mem.read b = s.mem.read b

/-- The block's inputs are the same: buffer and policy. -/
def SameInputs (s t : State) : Prop := t.buf = s.buf ∧ t.policy = s.policy

/-- The instruction pointer of `t` is that of `s` advanced by `n`, modulo 2^16. -/
def AdvancedBy (n : Nat) (s t : State) : Prop := t.ip.toNat = (s.ip.toNat + n) % 65536

/-- The flags of `t` are those of the 16-bit result `r` (R16, R102). -/
def FlagsOf (r : Nat) (t : State) : Prop := (t.zf = true ↔ r = 0) ∧ (t.sf = true ↔ 32768 ≤ r)

/-! ### What one instruction does -/

/-- A completed `mov` to a register: `r` holds `v`, nothing else differs but `ip`, `n` further, and the status is `OK`. -/
structure MovesToRegister (r : Reg) (v n : Nat) (s t : State) : Prop where
  value : (readReg t r).toNat = v
  others : SameRegsBut r s t
  flags : SameFlags s t
  memory : SameMem s t
  inputs : SameInputs s t
  pointer : AdvancedBy n s t
  status : t.status = .ok

/-- A completed `mov` to memory: the word `v` stands at `a`, nothing else differs but `ip`, `n` further, and the status is
`OK`. -/
structure MovesToMemory (a : Nat) (v : Word) (n : Nat) (s t : State) : Prop where
  stored : WordStoredAt a v s t
  registers : SameRegs s t
  flags : SameFlags s t
  inputs : SameInputs s t
  pointer : AdvancedBy n s t
  status : t.status = .ok

/-- A completed `add` or `sub`: `r` holds the result `v`, the flags are those of `v`, nothing else differs but `ip`, `n`
further, and the status is `OK`. -/
structure Computes (r : Reg) (v n : Nat) (s t : State) : Prop where
  value : (readReg t r).toNat = v
  others : SameRegsBut r s t
  flags : FlagsOf v t
  memory : SameMem s t
  inputs : SameInputs s t
  pointer : AdvancedBy n s t
  status : t.status = .ok

/-- A completed `cmp`: the flags are those of the difference `v`, nothing else differs but `ip`, `n` further, and the status
is `OK`. -/
structure Compares (v n : Nat) (s t : State) : Prop where
  registers : SameRegs s t
  flags : FlagsOf v t
  memory : SameMem s t
  inputs : SameInputs s t
  pointer : AdvancedBy n s t
  status : t.status = .ok

/-- `u16(a + b)` on naturals (R100). -/
def sum16 (a b : Nat) : Nat := (a + b) % 65536

/-- `u16(a - b)` on naturals (R101). -/
def difference16 (a b : Nat) : Nat := (a + (65536 - b)) % 65536

/-- `c` does what `u` does but for the register write: it stops as `u` stops, and where `u` completes, `c` completes with the
same flags and the same `ip`, and changes no register and no byte of memory (R104). -/
def ComparesLike (c u : Instr) (s : State) : Prop :=
  (∀ r : Refusal, exec c s = .refused r ↔ exec u s = .refused r) ∧
  (∀ f : Fault, exec c s = .fault f ↔ exec u s = .fault f) ∧
  ∀ v : State, exec u s = .next v →
    ∃ t : State, exec c s = .next t ∧ SameFlags v t ∧ t.ip = v.ip ∧ SameRegs s t ∧ SameMem s t

/-! ### The invariant -/

/-- What every step keeps: memory in its canonical form, the flags never both set (R18), the cells no rule can address
still zero (R37), and a buffer no longer than a simulation may be given (R5). -/
structure Inv (s : State) : Prop where
  memory : s.mem.wf = true
  flags : ¬ (s.zf = true ∧ s.sf = true)
  upper : ∀ a : Nat, 65536 ≤ a → s.mem.read a = 0#8
  buffer : s.buf.length ≤ Config.maxBuffer

/-! ### Kinds of instruction -/

/-- The record has a memory operand (R109). -/
def hasMemory (i : Instr) : Bool := i.record.operands.any (·.isMemory)

/-- `mov`, in any family: the only instruction that reaches data memory (R20). -/
def isMov (i : Instr) : Bool := decide (i.record.mnemonic = .mov)

/-- `add`, `sub` or `cmp`, in any family: the only writers of the flags (R17). -/
def isAlu (i : Instr) : Bool := decide (i.record.mnemonic = .add ∨ i.record.mnemonic = .sub ∨ i.record.mnemonic = .cmp)

/-- One of the 19 mnemonics without an executor handler (R107). -/
def isHandlerless (i : Instr) : Bool := !isMov i && !isAlu i && decide (i.record.mnemonic ≠ .jnz)

/-- The instruction's destination, `operands[0]`, is this memory operand. -/
def writesMemoryAt (i : Instr) (m : MemOperand) : Prop := i.record.operands.head? = some (.memory m)

/-- The 68 recognised first bytes, as the map of R67 lists them. -/
def recognised (op : Byte) : Bool :=
  let within (low high : Nat) : Bool := decide (low ≤ op.toNat) && decide (op.toNat ≤ high)
  within 0x00 0x05 || within 0x28 0x2D || within 0x38 0x3D || within 0x70 0x7F || within 0x80 0x83 ||
    within 0x88 0x8B || within 0xA0 0xA3 || within 0xB0 0xBF || within 0xC6 0xC7 || within 0xE0 0xE3

/-! ### The fields of an encoding -/

/-- The lengths of an instruction's fields in buffer order: opcode byte, mode-reg-rm byte, displacement or address, immediate
(R50 to R55); a field that is absent has length 0. Each field is one fetch of the decoder. -/
def fieldLengths (i : Instr) : List Nat :=
  match i with
  | .movRm _ _ _ rm | .addRm _ _ _ rm | .subRm _ _ _ rm | .cmpRm _ _ _ rm => [1, 1, rm.dispLength]
  | .movIm w _ rm _ => [1, 1, rm.dispLength, immLength false w]
  | .addIm s w rm _ | .subIm s w rm _ | .cmpIm s w rm _ => [1, 1, rm.dispLength, immLength s w]
  | .movAccMem _ _ | .movMemAcc _ _ => [1, 2]
  | .addAcc w _ | .subAcc w _ | .cmpAcc w _ | .movRegImm w _ _ => [1, immLength false w]
  | .jo _ | .jno _ | .jb _ | .jnb _ | .je _ | .jnz _ | .jbe _ | .ja _ => [1, 1]
  | .js _ | .jns _ | .jp _ | .jnp _ | .jl _ | .jnl _ | .jle _ | .jg _ => [1, 1]
  | .loopnz _ | .loopz _ | .loop _ | .jcxz _ => [1, 1]

/-- The first byte of the field that byte `k` falls in, with fields of these lengths from 0 on. -/
def fieldStart : List Nat → Nat → Nat
  | [], _ => 0
  | n :: rest, k => if k < n then 0 else n + fieldStart rest (k - n)

/-! ### Runs -/

/-- `t` is reached from `s` by completed steps. -/
inductive Reaches (s : State) : State → Prop where
  | refl : Reaches s s
  | step {t u : State} (h : Reaches s t) (hs : Machine.step t = .next u) : Reaches s u

/-- A run from `s` ends normally in `t` (R113): `t` is reached and its step is `Halt(EndOfBuffer)`. -/
def EndsNormally (s t : State) : Prop := Reaches s t ∧ Machine.step t = .fault .endOfBuffer

/-! ### The decode-only pass -/

/-- The loop of R92 as a relation: from offset `p` the sweep of `buf` yields `ys` and stops with `e`. -/
inductive Sweeps (buf : List Byte) : Nat → List (Instr × Nat) → Option DecodeError → Prop where
  | done {p : Nat} (h : buf.length ≤ p) : Sweeps buf p [] none
  | failed {p : Nat} {e : DecodeError} (h : p < buf.length) (hd : decode buf p = .error e) : Sweeps buf p [] (some e)
  | yields {p len : Nat} {i : Instr} {ys : List (Instr × Nat)} {e : Option DecodeError} (h : p < buf.length)
      (hd : decode buf p = .ok (i, len)) (hr : Sweeps buf (p + len) ys e) : Sweeps buf p ((i, len) :: ys) e

end Sys2Proof.Machine
end

