-- ==== Sys2Proof/Certificates/Slice0/Obligations.lean ====
section
/-! DEFINITION. Sys2Proof/Certificates/Slice0/Obligations.lean: the statements about the model. Each docstring names the rule
or section of spec/ it rests on; where that is a decision of the spec (`D<n>`) or of the model (`log <n>`), it says so. -/

open Sys2Proof Sys2Proof.Machine

/-! ### Reset, the invariant, the step -/

/-- R24: "is created once at simulation start (all zero)": registers, `ip`, flags, all 1,048,576 bytes, and the offset of a
decode-only pass. -/
def Obligations.ResetIsAllZero : Prop :=
  (∀ r : Reg, readReg State.reset r = 0#16) ∧ State.reset.ip = 0#16 ∧ State.reset.zf = false ∧ State.reset.sf = false ∧
  (∀ a : Nat, a < Config.memSize → State.reset.mem.read a = 0#8) ∧
  ∀ buf : List Byte, (DecodePass.start buf).p = 0

/-- The invariant (R18 and R37, the spec's derivations; R5's bound on N; the model's canonical memory, log 9) holds at reset
and once a program of at most 65,535 bytes is loaded. -/
def Obligations.InvariantHoldsAtReset : Prop :=
  Inv State.reset ∧ ∀ program : List Byte, program.length ≤ 65535 → Inv (State.load program)

/-- Every completed step keeps the invariant, from every state that has it. -/
def Obligations.EveryStepKeepsTheInvariant : Prop :=
  ∀ s t : State, Inv s → step s = .next t → Inv t

/-- 40_datapath.md section 1: when the bytes at `ip` decode to an instruction, the step is that instruction's `exec` in the
same state; `exec` itself advances `ip` (log 5). -/
def Obligations.StepRunsTheDecodedInstruction : Prop :=
  ∀ (s : State) (i : Instr) (n : Nat), decode s.buf s.ip.toNat = .ok (i, n) → step s = exec i s

/-- 40_datapath.md section 1 with the encoder: wherever a well-formed instruction's bytes stand at `ip`, the step is that
instruction's `exec`. -/
def Obligations.StepRunsTheEncodedInstruction : Prop :=
  ∀ (s : State) (i : Instr) (before after : List Byte), i.wf = true → s.buf = before ++ encode i ++ after →
    s.ip.toNat = before.length → step s = exec i s

/-- 40_datapath.md section 1 and 60_exceptions.md sections 2 and 4 (D4, D5, D15 for the order and the bound): what a step
does when there is no instruction to run. The halt is carried as a fault of its own name (log 1). -/
def Obligations.StepStopsWithoutAnInstruction : Prop :=
  ∀ s : State,
    (s.ip.toNat = s.buf.length → step s = .fault .endOfBuffer) ∧
    (s.ip.toNat > s.buf.length → step s = .fault (.fetchOutOfBounds s.ip)) ∧
    (s.ip.toNat < s.buf.length →
      (∀ op p, decode s.buf s.ip.toNat = .error (.noPattern op p) → step s = .fault (.noPattern op p)) ∧
      (∀ op p m, decode s.buf s.ip.toNat = .error (.secondaryField op p m) → step s = .fault (.secondaryField op p m)) ∧
      (∀ q, decode s.buf s.ip.toNat = .error (.outOfBounds q) → step s = .fault (.outOfBounds q)))

/-- 40_datapath.md section 6 (D27; carried as log 1 says): a step is the normal end of a run exactly when `ip = N`. No
instruction halts. -/
def Obligations.HaltsExactlyAtEndOfBuffer : Prop :=
  ∀ s : State, step s = .fault .endOfBuffer ↔ s.ip.toNat = s.buf.length

/-- 10_state.md section 2 (D4): for a buffer a simulation may be given, the sequential advance never wraps. -/
def Obligations.SequentialAdvanceNeverWraps : Prop :=
  ∀ (s : State) (i : Instr) (n : Nat), s.buf.length ≤ 65535 → decode s.buf s.ip.toNat = .ok (i, n) →
    (advance n s).ip.toNat = s.ip.toNat + n ∧ s.ip.toNat + n ≤ s.buf.length

/-! ### Primitives -/

/-- R7: `zext_16`, `sext_16`, `signed16` (`BitVec.toInt` in the model) and `u16` (`BitVec.ofInt 16`). -/
def Obligations.WideningPrimitives : Prop :=
  (∀ b : Byte, (zext16 b).toNat = b.toNat) ∧
  (∀ b : Byte, (sext16 b).toNat = if b.toNat < 128 then b.toNat else b.toNat + 0xFF00) ∧
  (∀ v : Word, v.toInt = if v.toNat < 32768 then (v.toNat : Int) else (v.toNat : Int) - 65536) ∧
  ∀ i : Int, ((BitVec.ofInt 16 i).toNat : Int) = i % 65536

/-- R22: `Fetch8`, `Fetch16`, and the buffer constant for the whole session. -/
def Obligations.FetchPrimitives : Prop :=
  (∀ (buf : List Byte) (p : Nat), p + 1 > buf.length → fetch8 buf p = .error (.outOfBounds p)) ∧
  (∀ (buf : List Byte) (p : Nat) (b : Byte), buf[p]? = some b → fetch8 buf p = .ok b) ∧
  (∀ (buf : List Byte) (p : Nat), p + 2 > buf.length → fetch16 buf p = .error (.outOfBounds p)) ∧
  (∀ (buf : List Byte) (p : Nat) (low high : Byte), buf[p]? = some low → buf[p + 1]? = some high →
    ∃ v : Word, fetch16 buf p = .ok v ∧ v.toNat = low.toNat + 256 * high.toNat) ∧
  ∀ s t : State, Reaches s t → t.buf = s.buf

/-- 40_datapath.md section 2: a whole register is written, and no other one. -/
def Obligations.RegisterFilePorts : Prop :=
  ∀ (s : State) (r : Reg) (v : Word),
    readReg (writeReg s r v) r = v ∧ SameRegsBut r s (writeReg s r v) ∧ SameFlags s (writeReg s r v) ∧
    (writeReg s r v).ip = s.ip ∧ (writeReg s r v).mem = s.mem

/-- R100: `add` computes `AluAdd(a, b) = u16(a + b)`, with the rule's examples. -/
def Obligations.AluAddWraps : Prop :=
  (∀ a b : Word, aluResult .add a b = aluAdd a b ∧ (aluAdd a b).toNat = (a.toNat + b.toNat) % 65536) ∧
  aluAdd 0xFFFF#16 0x0001#16 = 0x0000#16 ∧ aluAdd 0x7FFF#16 0x0001#16 = 0x8000#16

/-- R101: `sub` and `cmp` compute `AluSub(a, b) = u16(a - b)` of destination `a` and source `b`, with the rule's examples. -/
def Obligations.AluSubWraps : Prop :=
  (∀ a b : Word, aluResult .sub a b = aluSub a b ∧ aluResult .cmp a b = aluSub a b ∧
    ((aluSub a b).toNat : Int) = ((a.toNat : Int) - b.toNat) % 65536) ∧
  aluSub 0x0000#16 0x0001#16 = 0xFFFF#16 ∧ aluSub 0x8000#16 0x0001#16 = 0x7FFF#16 ∧ ∀ a : Word, aluSub a a = 0x0000#16

/-- R102: the flag update, from the 16-bit result, made by `add`, `sub` and `cmp` and by nothing else. -/
def Obligations.FlagsAreSetByTheAluAlone : Prop :=
  (∀ (s : State) (r : Word), FlagsOf r.toNat (setFlags s r) ∧ SameRegs s (setFlags s r) ∧ SameMem s (setFlags s r) ∧
    (setFlags s r).ip = s.ip) ∧
  (∀ (i : Instr) (s t : State), isAlu i = true → exec i s = .next t →
    ∃ (dst : Reg) (src : Operand) (b : Word), i.record.operands = [.register dst, src] ∧ readOperand src s = .ok b ∧
      FlagsOf (if i.record.mnemonic = .add then sum16 (readReg s dst).toNat b.toNat
        else difference16 (readReg s dst).toNat b.toNat) t) ∧
  ∀ (i : Instr) (s t : State), isAlu i = false → exec i s = .next t → SameFlags s t

/-- 20_memory.md sections 1 and 3 (D6 for the order of the bytes, D8 for the range, log 9 for the canonical form): the 2-byte
primitives. In range, a write puts the low byte at `ea` and the high byte at `ea + 1`, changes no other byte and nothing
else, and a read gives the value back; out of range both raise the fault. -/
def Obligations.WordAccessIsLittleEndian : Prop :=
  ∀ (s : State) (ea : Int) (v : Word),
    (0 ≤ ea → ea ≤ 65534 →
      (∃ u : Word, memRead16 s ea = .ok u ∧
        u.toNat = (s.mem.read ea.toNat).toNat + 256 * (s.mem.read (ea.toNat + 1)).toNat) ∧
      ∃ t : State, memWrite16 s ea v = .ok t ∧ WordStoredAt ea.toNat v s t ∧ memRead16 t ea = .ok v ∧
        SameRegs s t ∧ SameFlags s t ∧ t.ip = s.ip ∧ (s.mem.wf = true → t.mem.wf = true)) ∧
    (ea < 0 ∨ 65534 < ea →
      memRead16 s ea = .error (.addressOutOfRange ea 2) ∧ memWrite16 s ea v = .error (.addressOutOfRange ea 2))

/-- 20_memory.md section 3 (D8): the 1-byte primitives, which no executable instruction uses. -/
def Obligations.ByteAccess : Prop :=
  ∀ (s : State) (ea : Int) (b : Byte),
    (0 ≤ ea → ea ≤ 65535 →
      memRead8 s ea = .ok (s.mem.read ea.toNat) ∧
      ∃ t : State, memWrite8 s ea b = .ok t ∧ t.mem.read ea.toNat = b ∧
        (∀ a : Nat, a ≠ ea.toNat → t.mem.read a = s.mem.read a) ∧ (s.mem.wf = true → t.mem.wf = true)) ∧
    (ea < 0 ∨ 65535 < ea →
      memRead8 s ea = .error (.addressOutOfRange ea 1) ∧ memWrite8 s ea b = .error (.addressOutOfRange ea 1))

/-- 30_encoding.md sections 1 and 2 and 40_datapath.md section 3 (register numbering: general knowledge, log 11; exact sums: D8): the
register a field names, and the address of each base with a displacement. -/
def Obligations.EffectiveAddressTable : Prop :=
  ([0#3, 1#3, 2#3, 3#3, 4#3, 5#3, 6#3, 7#3].map Reg.ofBits = [.ax, .cx, .dx, .bx, .sp, .bp, .si, .di]) ∧
  ∀ (s : State) (d : Word),
    let x (k : BitVec 3) : Int := (readReg s (Reg.ofBits k)).toNat
    let ea (k : BitVec 3) : Int := effectiveAddress ⟨.ea (EaBase.ofBits k), d⟩ s
    ea 0#3 = x 3#3 + x 6#3 + d.toInt ∧ ea 1#3 = x 3#3 + x 7#3 + d.toInt ∧ ea 2#3 = x 5#3 + x 6#3 + d.toInt ∧
    ea 3#3 = x 5#3 + x 7#3 + d.toInt ∧ ea 4#3 = x 6#3 + d.toInt ∧ ea 5#3 = x 7#3 + d.toInt ∧
    ea 6#3 = x 5#3 + d.toInt ∧ ea 7#3 = x 3#3 + d.toInt ∧ effectiveAddress ⟨.direct, d⟩ s = d.toNat

/-- R61: the operand extractor, mode by mode. -/
def Obligations.AddressingModes : Prop :=
  (∀ m : MemOperand, m.isDirect = true ↔ m.base = .direct) ∧
  ∀ (rm : BitVec 3) (buf : List Byte) (q : Nat),
    (∃ o, decodeRm 3#2 rm buf q = .ok (o, 0) ∧ o.place = .register (.ofBits rm)) ∧
    (rm = 6#3 → (∀ a, fetch16 buf q = .ok a → ∃ o, decodeRm 0#2 rm buf q = .ok (o, 2) ∧ o.place = .memory ⟨.direct, a⟩) ∧
      ∀ e, fetch16 buf q = .error e → decodeRm 0#2 rm buf q = .error e) ∧
    (rm ≠ 6#3 → ∃ o, decodeRm 0#2 rm buf q = .ok (o, 0) ∧ o.place = .memory ⟨.ea (.ofBits rm), 0#16⟩) ∧
    ((∀ d, fetch8 buf q = .ok d → ∃ o, decodeRm 1#2 rm buf q = .ok (o, 1) ∧ o.place = .memory ⟨.ea (.ofBits rm), sext16 d⟩) ∧
      ∀ e, fetch8 buf q = .error e → decodeRm 1#2 rm buf q = .error e) ∧
    ((∀ d, fetch16 buf q = .ok d → ∃ o, decodeRm 2#2 rm buf q = .ok (o, 2) ∧ o.place = .memory ⟨.ea (.ofBits rm), d⟩) ∧
      ∀ e, fetch16 buf q = .error e → decodeRm 2#2 rm buf q = .error e)

/-- 30_encoding.md section 2 (D13 for the zero-extension of a byte immediate): the number of immediate bytes and the value. -/
def Obligations.ImmediateValues : Prop :=
  (immLength true .word = 1 ∧ immLength false .word = 2 ∧ immLength false .byte = 1 ∧ immLength true .byte = 1) ∧
  ∀ (b : Byte) (v : Word),
    (ImmField.imm8 b).value true .word = sext16 b ∧ (ImmField.imm16 v).value false .word = v ∧
    (ImmField.imm8 b).value false .byte = zext16 b ∧ (ImmField.imm8 b).value true .byte = zext16 b

/-! ### What each instruction does -/

/-- 41_regmem_reg.md, `mov` register/memory with register (opcodes: general knowledge, log 11; range: D8, log 17; order of
the two bytes in memory: D6, log 15; all eight bases: D9, log 16): with two registers it completes in every state; a load
or store completes exactly where both bytes of the word lie in 0..65535 (the other states are
`MovFaultsExactlyOutOfRange`). -/
def Obligations.MovRegMemCompletes : Prop :=
  ∀ (reg : Reg) (s : State),
    (∀ r : Reg,
      (∃ t, exec (.movRm .toReg .word reg (.reg r)) s = .next t ∧ MovesToRegister reg (readReg s r).toNat 2 s t) ∧
      ∃ t, exec (.movRm .toRm .word reg (.reg r)) s = .next t ∧ MovesToRegister r (readReg s reg).toNat 2 s t) ∧
    ∀ (rm : RmOperand) (m : MemOperand), rm.place = .memory m →
      0 ≤ effectiveAddress m s → effectiveAddress m s ≤ 65534 →
      (∃ t, exec (.movRm .toReg .word reg rm) s = .next t ∧
        MovesToRegister reg ((s.mem.read (effectiveAddress m s).toNat).toNat +
          256 * (s.mem.read ((effectiveAddress m s).toNat + 1)).toNat) (2 + rm.dispLength) s t) ∧
      ∃ t, exec (.movRm .toRm .word reg rm) s = .next t ∧
        MovesToMemory (effectiveAddress m s).toNat (readReg s reg) (2 + rm.dispLength) s t

/-- 42_imm_regmem.md, `mov` immediate to register/memory (opcodes: general knowledge, log 11; the ignored field: D14, log 19;
range: D8, log 17; order of the two bytes in memory: D6, log 15; all eight bases: D9, log 16). -/
def Obligations.MovImmRegMemCompletes : Prop :=
  ∀ (ignored : BitVec 3) (v : Word) (s : State),
    (∀ r : Reg, ∃ t, exec (.movIm .word ignored (.reg r) (.imm16 v)) s = .next t ∧ MovesToRegister r v.toNat 4 s t) ∧
    ∀ (rm : RmOperand) (m : MemOperand), rm.place = .memory m →
      0 ≤ effectiveAddress m s → effectiveAddress m s ≤ 65534 →
      ∃ t, exec (.movIm .word ignored rm (.imm16 v)) s = .next t ∧
        MovesToMemory (effectiveAddress m s).toNat v (4 + rm.dispLength) s t

/-- 43_accumulator.md, `mov` between accumulator and memory (opcodes: general knowledge, log 11; range: D8, log 17; order of
the two bytes in memory: D6, log 15). -/
def Obligations.MovAccumulatorCompletes : Prop :=
  ∀ (a : Word) (s : State), a.toNat ≤ 65534 →
    (∃ t, exec (.movAccMem .word a) s = .next t ∧
      MovesToRegister .ax ((s.mem.read a.toNat).toNat + 256 * (s.mem.read (a.toNat + 1)).toNat) 3 s t) ∧
    ∃ t, exec (.movMemAcc .word a) s = .next t ∧ MovesToMemory a.toNat (readReg s .ax) 3 s t

/-- 44_mov_imm_reg.md, `mov` immediate to register: every register, `sp` and `bp` included; no flag. -/
def Obligations.MovImmediateToRegisterCompletes : Prop :=
  ∀ (r : Reg) (v : Word) (s : State),
    ∃ t, exec (.movRegImm .word r (.imm16 v)) s = .next t ∧ MovesToRegister r v.toNat 3 s t

/-- 41_regmem_reg.md, `add`, `sub`, `cmp` of two registers, in both directions (opcodes: general knowledge, log 11). -/
def Obligations.AluRegisterFormsComplete : Prop :=
  ∀ (dst src : Reg) (s : State),
    let a := (readReg s dst).toNat
    let b := (readReg s src).toNat
    ((∃ t, exec (.addRm .toReg .word dst (.reg src)) s = .next t ∧ Computes dst (sum16 a b) 2 s t) ∧
      ∃ t, exec (.addRm .toRm .word src (.reg dst)) s = .next t ∧ Computes dst (sum16 a b) 2 s t) ∧
    ((∃ t, exec (.subRm .toReg .word dst (.reg src)) s = .next t ∧ Computes dst (difference16 a b) 2 s t) ∧
      ∃ t, exec (.subRm .toRm .word src (.reg dst)) s = .next t ∧ Computes dst (difference16 a b) 2 s t) ∧
    (∃ t, exec (.cmpRm .toReg .word dst (.reg src)) s = .next t ∧ Compares (difference16 a b) 2 s t) ∧
      ∃ t, exec (.cmpRm .toRm .word src (.reg dst)) s = .next t ∧ Compares (difference16 a b) 2 s t

/-- 42_imm_regmem.md, `add`, `sub`, `cmp` of an immediate with a register: a word immediate (S = 0, four bytes) and a
sign-extended byte (S = 1, three bytes) (opcodes and secondary field: general knowledge, log 11). -/
def Obligations.AluImmediateFormsComplete : Prop :=
  ∀ (r : Reg) (s : State),
    let a := (readReg s r).toNat
    (∀ v : Word,
      (∃ t, exec (.addIm false .word (.reg r) (.imm16 v)) s = .next t ∧ Computes r (sum16 a v.toNat) 4 s t) ∧
      (∃ t, exec (.subIm false .word (.reg r) (.imm16 v)) s = .next t ∧ Computes r (difference16 a v.toNat) 4 s t) ∧
      ∃ t, exec (.cmpIm false .word (.reg r) (.imm16 v)) s = .next t ∧ Compares (difference16 a v.toNat) 4 s t) ∧
    ∀ d : Byte,
      (∃ t, exec (.addIm true .word (.reg r) (.imm8 d)) s = .next t ∧ Computes r (sum16 a (sext16 d).toNat) 3 s t) ∧
      (∃ t, exec (.subIm true .word (.reg r) (.imm8 d)) s = .next t ∧ Computes r (difference16 a (sext16 d).toNat) 3 s t) ∧
      ∃ t, exec (.cmpIm true .word (.reg r) (.imm8 d)) s = .next t ∧ Compares (difference16 a (sext16 d).toNat) 3 s t

/-- 43_accumulator.md, `add`, `sub`, `cmp` of an immediate with the accumulator (opcodes: general knowledge, log 11). -/
def Obligations.AluAccumulatorFormsComplete : Prop :=
  ∀ (v : Word) (s : State),
    let a := (readReg s .ax).toNat
    (∃ t, exec (.addAcc .word (.imm16 v)) s = .next t ∧ Computes .ax (sum16 a v.toNat) 3 s t) ∧
    (∃ t, exec (.subAcc .word (.imm16 v)) s = .next t ∧ Computes .ax (difference16 a v.toNat) 3 s t) ∧
    ∃ t, exec (.cmpAcc .word (.imm16 v)) s = .next t ∧ Compares (difference16 a v.toNat) 3 s t

/-- R165: `jnz`: its encoding, its missing byte and its text; the branch, taken iff `ZF = 0`, from the offset of the next
instruction, modulo 2^16; nothing else changes; a target outside the buffer stops the next step. -/
def Obligations.JnzBranchesOnZeroClear : Prop :=
  render (Instr.jnz 0xFE#8).record = "jnz -2" ∧
  (∀ (buf : List Byte) (p : Nat), buf[p]? = some 0x75#8 →
    (∀ d : Byte, buf[p + 1]? = some d → decode buf p = .ok (.jnz d, 2)) ∧
    (buf.length = p + 1 → decode buf p = .error (.outOfBounds (p + 1)))) ∧
  ∀ (d : Byte) (s : State), ∃ t, exec (.jnz d) s = .next t ∧
    (t.ip.toNat : Int) = (s.ip.toNat + 2 + (if s.zf = false then d.toInt else 0)) % 65536 ∧
    SameRegs s t ∧ SameFlags s t ∧ SameMem s t ∧ SameInputs s t ∧ t.status = .ok ∧
    (t.ip.toNat > t.buf.length → stepReport t = .fault (.fetchOutOfBounds t.ip)) ∧
    (t.ip.toNat = t.buf.length → stepReport t = .halt)

/-- 45_jumps_loops.md and 40_datapath.md section 5 (D10, log 12): under the default policy each of the 19 handler-less
mnemonics completes in every state: `ip` 2 further, status `NO_HANDLER`, nothing else, whatever the displacement. -/
def Obligations.HandlerlessJumpsOnlyAdvance : Prop :=
  ∀ j ∈ ([.jo, .jno, .jb, .jnb, .je, .jbe, .ja, .js, .jns, .jp, .jnp, .jl, .jnl, .jle, .jg, .loopnz, .loopz, .loop, .jcxz] :
      List (Byte → Instr)),
    ∀ (d : Byte) (s : State), s.policy = .advanceOnly → ∃ t, exec (j d) s = .next t ∧ AdvancedBy 2 s t ∧
      t.status = .noHandler ∧ SameRegs s t ∧ SameFlags s t ∧ SameMem s t ∧ SameInputs s t

/-! ### Where an instruction stops -/

/-- 40_datapath.md section 5 and 60_exceptions.md sections 2 and 4 (D10, D11, D12 and the order D15, log 12 to log 14): the
executor refuses exactly byte width, then a memory operand of the ALU, then the handler-less mnemonics under `refuse`. -/
def Obligations.ExecutorRefusesExactly : Prop :=
  ∀ (i : Instr) (s : State) (r : Refusal), exec i s = .refused r ↔
    (r = .byteWidthExecution ∧ (isMov i = true ∨ isAlu i = true) ∧ i.record.width = .byte) ∨
    (r = .aluMemoryOperand ∧ isAlu i = true ∧ i.record.width = .word ∧ hasMemory i = true) ∨
    (r = .noHandler i.record.mnemonic ∧ isHandlerless i = true ∧ s.policy = .refuse)

/-- R110: the only fault the executor raises is `AddressOutOfRange`, from the memory read or write of a `mov`. -/
def Obligations.ExecutorFaultsOnlyOnAddresses : Prop :=
  ∀ (i : Instr) (s : State) (f : Fault), exec i s = .fault f →
    isMov i = true ∧ (∃ (ea : Int) (n : Nat), f = .addressOutOfRange ea n) ∧
      ∃ m : MemOperand, .memory m ∈ i.record.operands ∧
        (memRead16 s (effectiveAddress m s) = .error f ∨ ∃ v : Word, memWrite16 s (effectiveAddress m s) v = .error f)

/-- 20_memory.md section 3 and 60_exceptions.md section 2 (D8): a word `mov` with a memory operand faults exactly when a byte
of the word lies outside 0..65535, and reports the exact address and the size. -/
def Obligations.MovFaultsExactlyOutOfRange : Prop :=
  ∀ (i : Instr) (s : State) (f : Fault), exec i s = .fault f ↔
    isMov i = true ∧ i.record.width = .word ∧ ∃ m : MemOperand, .memory m ∈ i.record.operands ∧
      (effectiveAddress m s < 0 ∨ 65534 < effectiveAddress m s) ∧ f = .addressOutOfRange (effectiveAddress m s) 2

/-! ### Whole-machine rules -/

/-- 10_state.md section 1 (the spec's derivation): at most one general register changes per instruction, and it is the
destination; `cmp`, the jumps and the stores change none. -/
def Obligations.AtMostOneRegisterChanges : Prop :=
  ∀ (i : Instr) (s t : State), exec i s = .next t →
    (∀ r : Reg, i.record.operands.head? = some (.register r) → SameRegsBut r s t) ∧
    ((∀ r : Reg, i.record.operands.head? ≠ some (.register r)) ∨ i.record.mnemonic = .cmp → SameRegs s t)

/-- 10_state.md section 5: data memory is written only by an instruction whose destination is a memory operand, which is a
`mov`, and only at the two bytes at the effective address taken in the state before it. -/
def Obligations.OnlyTheStoredBytesChange : Prop :=
  ∀ (i : Instr) (s t : State), exec i s = .next t →
    (∀ m : MemOperand, writesMemoryAt i m → isMov i = true ∧ 0 ≤ effectiveAddress m s ∧
      ∀ a : Nat, a ≠ (effectiveAddress m s).toNat → a ≠ (effectiveAddress m s).toNat + 1 →
        t.mem.read a = s.mem.read a) ∧
    ((∀ m : MemOperand, ¬ writesMemoryAt i m) → SameMem s t)

/-- R104: `cmp` is `sub` without the register write, in the three families. -/
def Obligations.CmpIsSubWithoutTheWrite : Prop :=
  ∀ s : State,
    (∀ d w reg rm, ComparesLike (.cmpRm d w reg rm) (.subRm d w reg rm) s) ∧
    (∀ sx w rm imm, ComparesLike (.cmpIm sx w rm imm) (.subIm sx w rm imm) s) ∧
    ∀ w imm, ComparesLike (.cmpAcc w imm) (.subAcc w imm) s

/-- 10_state.md section 2: every instruction but a taken `jnz` leaves `ip` at the next instruction. -/
def Obligations.PointerAdvancesByLength : Prop :=
  ∀ (i : Instr) (s t : State), exec i s = .next t →
    AdvancedBy i.len s t ∨ (i.record.mnemonic = .jnz ∧ s.zf = false)

/-- 40_datapath.md sections 5 and 6 (D10; the status is carried as log 4 says): `NO_HANDLER` marks exactly the 19. -/
def Obligations.StatusMarksTheHandlerless : Prop :=
  ∀ (i : Instr) (s t : State), exec i s = .next t →
    t.status = if isHandlerless i then .noHandler else .ok

/-- 10_state.md section 5: an instruction without a memory operand neither reads nor writes data memory: with another memory
it does the same and leaves that memory as it is. -/
def Obligations.MemoryIsInvisibleWithoutAMemoryOperand : Prop :=
  ∀ (i : Instr) (s : State) (m : Memory), hasMemory i = false →
    (∀ t, exec i s = .next t → exec i (setMem s m) = .next (setMem t m)) ∧
    (∀ f, exec i s ≠ .fault f) ∧
    ∀ r, exec i s = .refused r → exec i (setMem s m) = .refused r

/-- 40_datapath.md section 1: the meaning of each of the 34 instructions is `Execute(I, len, s)` of its record and of its
own length (log 5). -/
def Obligations.ExecIsExecuteOfTheRecord : Prop :=
  ∀ (i : Instr) (s : State), exec i s = execute i.record i.len s

/-! ### Decoding and encoding -/

/-- 30_encoding.md (opcodes: general knowledge, log 11): decoding an encoded well-formed instruction gives it back, with its
length, whatever stands before and after it. -/
def Obligations.DecodeOfEncode : Prop :=
  ∀ (i : Instr) (before after : List Byte), i.wf = true →
    decode (before ++ encode i ++ after) before.length = .ok (i, i.len)

/-- 30_encoding.md: what decodes is well-formed, and encodes to exactly the bytes consumed: no bit of an instruction is
dropped, since `Instr` keeps the fields R72 calls don't-care (log 6). -/
def Obligations.EncodeOfDecode : Prop :=
  ∀ (buf : List Byte) (p : Nat) (i : Instr) (n : Nat), decode buf p = .ok (i, n) →
    i.wf = true ∧ encode i = (buf.drop p).take n ∧ p + n ≤ buf.length

/-- R74: `bytes_consumed` is the sum the rule gives per format (`Instr.len`, `RmOperand.dispLength`, `immLength`), 2 to 6. -/
def Obligations.LengthIsExact : Prop :=
  ∀ (buf : List Byte) (p : Nat) (i : Instr) (n : Nat), decode buf p = .ok (i, n) → n = i.len ∧ 2 ≤ n ∧ n ≤ 6

/-- 30_encoding.md section 5: the decoder reads nothing beyond the instruction. -/
def Obligations.DecoderReadsOnlyTheInstruction : Prop :=
  ∀ (buf buf' : List Byte) (p : Nat) (i : Instr) (n : Nat), decode buf p = .ok (i, n) →
    (∀ k : Nat, k < n → buf'[p + k]? = buf[p + k]?) → decode buf' p = .ok (i, n)

/-- 60_exceptions.md section 2: a buffer that ends inside an instruction is `OutOfBounds` at the first byte of the fetch that
fails, which is the field that the first missing byte falls in, never a shorter instruction. -/
def Obligations.TruncatedInstructionIsOutOfBounds : Prop :=
  ∀ (i : Instr) (before : List Byte) (k : Nat), i.wf = true → k < i.len →
    decode (before ++ (encode i).take k) before.length =
      .error (.outOfBounds (before.length + fieldStart (fieldLengths i) k))

/-- 30_encoding.md sections 3 and 4 (D5; values: general knowledge, log 11): the decoder fails with `NoPattern` exactly on the
188 first bytes outside the map, and reports the byte and its offset. -/
def Obligations.UnknownFirstByteFails : Prop :=
  ∀ (buf : List Byte) (p : Nat) (op : Byte), buf[p]? = some op →
    (recognised op = false → decode buf p = .error (.noPattern op p)) ∧
    (recognised op = true → ∀ b q, decode buf p ≠ .error (.noPattern b q))

/-- 30_encoding.md section 4 (D5, D16; values: general knowledge, log 11): the decoder fails with `SecondaryField` exactly on
a first byte 0x80..0x83 whose second byte's `reg` field is not 0, 5 or 7, before it needs any later byte. -/
def Obligations.UnrecognisedSecondaryFieldFails : Prop :=
  ∀ (buf : List Byte) (p : Nat) (op m b : Byte) (q : Nat),
    decode buf p = .error (.secondaryField op q m) ∧ buf[p]? = some b ↔
      b = op ∧ q = p ∧ buf[p]? = some op ∧ 0x80 ≤ op.toNat ∧ op.toNat ≤ 0x83 ∧ buf[p + 1]? = some m ∧
        m.toNat / 8 % 8 ≠ 0 ∧ m.toNat / 8 % 8 ≠ 5 ∧ m.toNat / 8 % 8 ≠ 7

/-- 30_encoding.md section 2 (the spec's derivation): no byte matches two entries of the pattern list, and 68 match one. -/
def Obligations.OpcodePatternsDoNotOverlap : Prop :=
  (∀ op : Byte, (opcodeTable.filter (·.matchesByte op)).length ≤ 1) ∧
  ((List.range 256).filter fun n => (lookup (BitVec.ofNat 8 n)).isSome).length = 68

/-- 30_encoding.md (95_test_vectors.md section 2; values: general knowledge, log 11): one written-out word per family. -/
def Obligations.WrittenWordsDecode : Prop :=
  decode [0x8B#8, 0x9E#8, 0x00#8, 0x01#8] 0 = .ok (.movRm .toReg .word .bx (.mem16 .bp 0x0100#16), 4) ∧
  decode [0xC7#8, 0x47#8, 0x02#8, 0x07#8, 0x00#8] 0 = .ok (.movIm .word 0#3 (.mem8 .bx 2#8) (.imm16 7#16), 5) ∧
  decode [0x83#8, 0xE9#8, 0x01#8] 0 = .ok (.subIm true .word (.reg .cx) (.imm8 1#8), 3) ∧
  decode [0xA3#8, 0x0F#8, 0x00#8] 0 = .ok (.movMemAcc .word 15#16, 3) ∧
  decode [0xBF#8, 0x00#8, 0xF0#8] 0 = .ok (.movRegImm .word .di (.imm16 0xF000#16), 3) ∧
  decode [0x74#8, 0x80#8] 0 = .ok (.je 0x80#8, 2)

/-- R84: the three scenarios in the assembler syntax, through the decoder and the renderer. -/
def Obligations.ScenarioTexts : Prop :=
  (decodeAll [0xB8#8, 0x05#8, 0x00#8]).1.map (fun y => render y.1.record) = ["mov ax, 5"] ∧
  (decodeAll [0xB0#8, 0x07#8]).1.map (fun y => render y.1.record) = ["mov al, 7"] ∧
  (decodeAll [0x75#8, 0xFE#8]).1.map (fun y => render y.1.record) = ["jnz -2"]

/-- R92: the decode-only pass is the loop of the rule, for a buffer of any length: its bound on turns is never what stops it. -/
def Obligations.DecodeAllIsTheSweep : Prop :=
  ∀ buf : List Byte, Sweeps buf 0 (decodeAll buf).1 (decodeAll buf).2

/-- 40_datapath.md section 1 and 30_encoding.md: the pass and the encoder are inverse: a pass without error yields
instructions whose encodings are the buffer (since `Instr` keeps the fields R72 calls don't-care: log 6), and a buffer of
encoded well-formed instructions is yielded back, in order, without error. -/
def Obligations.DecodeAllReassembles : Prop :=
  (∀ buf : List Byte, (decodeAll buf).2 = none → (decodeAll buf).1.flatMap (fun y => encode y.1) = buf) ∧
  ∀ is : List Instr, (∀ i ∈ is, i.wf = true) →
    decodeAll (is.flatMap encode) = (is.map fun i => (i, i.len), none)

/-! ### Outputs and runs -/

/-- 40_datapath.md section 6 (D20, log 21 for the mask: bit 0 is `ZF`, bit 1 is `SF`): the diff lists exactly the registers that
changed, at most one, and `ip` and the flag mask exactly when they changed, each with its old and new value. -/
def Obligations.DiffListsExactlyTheChanges : Prop :=
  ∀ s t : State, step s = .next t →
    (diff s t).regs.length ≤ 1 ∧
    (∀ (r : Reg) (old new : Word), (r, old, new) ∈ (diff s t).regs ↔ old = readReg s r ∧ new = readReg t r ∧ old ≠ new) ∧
    (∀ c, (diff s t).ip = some c ↔ c = (s.ip, t.ip) ∧ s.ip ≠ t.ip) ∧
    (∀ c, (diff s t).flags = some c ↔ c = (flagMask s, flagMask t) ∧ ¬ SameFlags s t) ∧
    ∀ u : State, (flagMask u).toNat = u.zf.toNat + 2 * u.sf.toNat

/-- 60_exceptions.md section 5 and 40_datapath.md section 6 (D26, D27): a session that ends gives the state before the step
that ended it, a state completed steps reach from the start; only the halt is a normal end. -/
def Obligations.SessionEndsPrecisely : Prop :=
  ∀ (fuel : Nat) (s : State),
    (∀ t, runSession fuel s = .halted t → EndsNormally s t) ∧
    (∀ t f, runSession fuel s = .faulted t f → Reaches s t ∧ step t = .fault f ∧ f ≠ .endOfBuffer) ∧
    (∀ t r, runSession fuel s = .refused t r → Reaches s t ∧ step t = .refused r) ∧
    ∀ t, runSession fuel s = .running t → Reaches s t

/-- 40_datapath.md section 6 (D20, log 21 for the letters): the final-state report lists exactly the registers that are not
zero, each once, with `ip` and exactly the letters of the set flags, each once. -/
def Obligations.FinalReportContent : Prop :=
  ∀ s : State,
    (∀ (r : Reg) (v : Word), (r, v) ∈ (finalReport s).regs ↔ v = readReg s r ∧ v ≠ 0#16) ∧
    (finalReport s).regs.Nodup ∧ (finalReport s).ip = s.ip ∧
    (∀ c : Char, c ∈ (finalReport s).flags ↔ c = 'Z' ∧ s.zf = true ∨ c = 'S' ∧ s.sf = true) ∧
    (finalReport s).flags.Nodup
end

