-- ==== Sys2Proof/Laws/Decode.lean ====
section
/-! SUPPORT. Sys2Proof/Laws/Decode.lean: the small lemmas of the decoder's and encoder's parts: bytes of a word, field tables,
the byte cursor over an appended buffer, and inversion of the fetches. -/

namespace Sys2Proof

/-! ### Bytes of a word -/

theorem lowByte_toNat (v : Word) : (lowByte v).toNat = v.toNat % 256 := by
  simp [lowByte]

theorem highByte_toNat (v : Word) : (highByte v).toNat = v.toNat / 256 := by
  have := v.isLt
  simp [highByte, Nat.shiftRight_eq_div_pow]
  omega

theorem wordOf_toNat (low high : Byte) : (wordOf low high).toNat = low.toNat + 256 * high.toNat := by
  have := low.isLt
  simp only [wordOf, BitVec.toNat_append]
  rw [← Nat.shiftLeft_add_eq_or_of_lt this, Nat.shiftLeft_eq]
  omega

@[simp] theorem wordOf_low_high (v : Word) : wordOf (lowByte v) (highByte v) = v := by
  apply BitVec.eq_of_toNat_eq
  rw [wordOf_toNat, lowByte_toNat, highByte_toNat]
  omega

@[simp] theorem lowByte_wordOf (low high : Byte) : lowByte (wordOf low high) = low := by
  have := low.isLt
  apply BitVec.eq_of_toNat_eq
  rw [lowByte_toNat, wordOf_toNat]
  omega

@[simp] theorem highByte_wordOf (low high : Byte) : highByte (wordOf low high) = high := by
  have := low.isLt
  apply BitVec.eq_of_toNat_eq
  rw [highByte_toNat, wordOf_toNat]
  omega

/-! ### Field tables -/

@[simp] theorem Reg.ofBits_bits (r : Reg) : Reg.ofBits r.bits = r := by cases r <;> rfl
@[simp] theorem Reg.bits_ofBits (b : BitVec 3) : (Reg.ofBits b).bits = b := by revert b; decide
@[simp] theorem EaBase.ofBits_bits (e : EaBase) : EaBase.ofBits e.bits = e := by cases e <;> rfl
@[simp] theorem EaBase.bits_ofBits (b : BitVec 3) : (EaBase.ofBits b).bits = b := by revert b; decide

/-- The three fields of a mode-reg-rm byte, split off and joined again (R56). -/
theorem modRm_join (m : Byte) : modField m ++ regField m ++ rmField m = m := by revert m; decide

@[simp] theorem modField_join (a : BitVec 2) (b c : BitVec 3) : modField (a ++ b ++ c) = a := by revert a b c; decide
@[simp] theorem regField_join (a : BitVec 2) (b c : BitVec 3) : regField (a ++ b ++ c) = b := by revert a b c; decide
@[simp] theorem rmField_join (a : BitVec 2) (b c : BitVec 3) : rmField (a ++ b ++ c) = c := by revert a b c; decide

/-- An immediate's bytes are as many as its check says (R64). -/
theorem ImmField.bytes_length (s : Bool) (w : Width) (imm : ImmField) (h : imm.wf (immWide s w) = true) :
    imm.bytes.length = immLength s w := by
  cases imm <;> cases s <;> cases w <;> first | rfl | cases h

/-- The mode-reg-rm byte and its displacement bytes (R74). -/
theorem modRmBytes_length (reg : BitVec 3) (rm : RmOperand) : (modRmBytes reg rm).length = 1 + rm.dispLength := by
  cases rm <;> rfl

/-! ### The byte cursor -/

theorem fetch8_ok {buf : List Byte} {p : Nat} {b : Byte} : fetch8 buf p = .ok b ↔ buf[p]? = some b := by
  unfold fetch8
  cases buf[p]? <;> simp

theorem fetch8_error {buf : List Byte} {p : Nat} {e : DecodeError} :
    fetch8 buf p = .error e ↔ buf.length ≤ p ∧ e = .outOfBounds p := by
  unfold fetch8
  cases h : buf[p]? with
  | none => simp [List.getElem?_eq_none_iff.mp h, eq_comm]
  | some b =>
    have := (List.getElem?_eq_some_iff.mp h).1
    simp
    omega

theorem fetch16_ok {buf : List Byte} {p : Nat} {v : Word} :
    fetch16 buf p = .ok v ↔ ∃ low high, buf[p]? = some low ∧ buf[p + 1]? = some high ∧ v = wordOf low high := by
  unfold fetch16
  cases buf[p]? <;> cases buf[p + 1]? <;> simp [eq_comm]

theorem fetch16_error {buf : List Byte} {p : Nat} {e : DecodeError} :
    fetch16 buf p = .error e ↔ buf.length ≤ p + 1 ∧ e = .outOfBounds p := by
  unfold fetch16
  cases h : buf[p]? with
  | none => simp [Nat.le_succ_of_le (List.getElem?_eq_none_iff.mp h), eq_comm]
  | some b =>
    cases h' : buf[p + 1]? with
    | none => simp [List.getElem?_eq_none_iff.mp h', eq_comm]
    | some c =>
      have := (List.getElem?_eq_some_iff.mp h').1
      simp
      omega

/-- A byte found `k` past the end of what stands before. -/
theorem getElem?_past (before rest : List Byte) (k : Nat) : (before ++ rest)[before.length + k]? = rest[k]? := by
  rw [List.getElem?_append_right (by omega)]
  congr 1
  omega

end Sys2Proof
end

