-- ==== Sys2Proof/Laws/Memory.lean ====
section
/-! SUPPORT. Sys2Proof/Laws/Memory.lean: the laws of data memory: read after write, other bytes unchanged, and the canonical
form kept by every memory operation. -/

namespace Sys2Proof.Machine

namespace Memory

variable (m : Memory) (a : Nat)

/-! ### Reading -/

theorem read_erase_same : (erase m a).read a = 0#8 := by
  induction m with
  | nil => rfl
  | cons c rest ih =>
    obtain ⟨k, b⟩ := c
    by_cases h : k = a
    · simpa [erase, h] using ih
    · simpa [erase, h, read, Ne.symm h] using ih

theorem read_erase_other {k : Nat} (h : k ≠ a) : (erase m a).read k = m.read k := by
  induction m with
  | nil => rfl
  | cons c rest ih =>
    obtain ⟨j, b⟩ := c
    by_cases hj : j = a
    · subst hj
      simpa [erase, read, h] using ih
    · by_cases hk : k = j
      · simp [erase, read, hj, hk]
      · simpa [erase, read, hj, hk] using ih

theorem read_insert_same (b : Byte) (h : ∀ c ∈ m, c.1 ≠ a) : (insert m a b).read a = b := by
  induction m with
  | nil => simp [insert, read]
  | cons c rest ih =>
    obtain ⟨j, b'⟩ := c
    have hj : a ≠ j := fun e => h (j, b') (by simp) e.symm
    by_cases hlt : a < j
    · simp [insert, read, hlt]
    · simp [insert, read, hlt, hj, ih fun c hc => h c (by simp [hc])]

theorem read_insert_other (b : Byte) {k : Nat} (h : k ≠ a) : (insert m a b).read k = m.read k := by
  induction m with
  | nil => simp [insert, read, h]
  | cons c rest ih =>
    obtain ⟨j, b'⟩ := c
    by_cases hlt : a < j
    · simp [insert, read, hlt, h]
    · simp [insert, read, hlt, ih]

theorem erase_avoids : ∀ c ∈ erase m a, c.1 ≠ a := by
  intro c hc
  simpa [erase] using (List.mem_filter.mp hc).2

/-- A written byte reads back. -/
@[simp] theorem read_write_same (b : Byte) : (write m a b).read a = b := by
  by_cases h : b = 0#8
  · simp [write, h, read_erase_same]
  · simp [write, h, read_insert_same _ _ _ (erase_avoids m a)]

/-- No other byte changes. -/
theorem read_write_other (b : Byte) {k : Nat} (h : k ≠ a) : (write m a b).read k = m.read k := by
  by_cases hb : b = 0#8
  · simp [write, hb, read_erase_other _ _ h]
  · simp [write, hb, read_insert_other _ _ _ h, read_erase_other _ _ h]

/-! ### The canonical form -/

theorem wfFrom_cons {low j : Nat} {b : Byte} {rest : Memory} :
    wfFrom low ((j, b) :: rest) = true ↔ low ≤ j ∧ j < Config.memSize ∧ b ≠ 0#8 ∧ wfFrom (j + 1) rest = true := by
  simp [wfFrom, and_assoc]

theorem wfFrom_mono {low low' : Nat} (h : wfFrom low m = true) (hl : low' ≤ low) : wfFrom low' m = true := by
  cases m with
  | nil => rfl
  | cons c rest =>
    obtain ⟨h1, h2⟩ := wfFrom_cons.mp h
    exact wfFrom_cons.mpr ⟨hl.trans h1, h2⟩

theorem erase_cons_same (b : Byte) (rest : Memory) : erase ((a, b) :: rest) a = erase rest a := by simp [erase]

theorem erase_cons_other {j : Nat} (b : Byte) (rest : Memory) (h : j ≠ a) :
    erase ((j, b) :: rest) a = (j, b) :: erase rest a := by simp [erase, h]

theorem wfFrom_erase {low : Nat} (h : wfFrom low m = true) : wfFrom low (erase m a) = true := by
  induction m generalizing low with
  | nil => rfl
  | cons c rest ih =>
    obtain ⟨j, b⟩ := c
    obtain ⟨h1, h2, h3, h4⟩ := wfFrom_cons.mp h
    by_cases hj : j = a
    · subst hj
      rw [erase_cons_same]
      exact wfFrom_mono _ (ih h4) (by omega)
    · rw [erase_cons_other _ _ _ hj]
      exact wfFrom_cons.mpr ⟨h1, h2, h3, ih h4⟩

theorem wfFrom_insert {low : Nat} {b : Byte} (h : wfFrom low m = true) (hl : low ≤ a) (ha : a < Config.memSize)
    (hb : b ≠ 0#8) (hm : ∀ c ∈ m, c.1 ≠ a) : wfFrom low (insert m a b) = true := by
  induction m generalizing low with
  | nil => simp [insert, wfFrom, hl, ha, hb]
  | cons c rest ih =>
    obtain ⟨j, b'⟩ := c
    obtain ⟨h1, h2, h3, h4⟩ := wfFrom_cons.mp h
    have hj : j ≠ a := hm (j, b') (by simp)
    by_cases hlt : a < j
    · rw [insert, if_pos hlt]
      exact wfFrom_cons.mpr ⟨hl, ha, hb, wfFrom_cons.mpr ⟨by omega, h2, h3, h4⟩⟩
    · rw [insert, if_neg hlt]
      exact wfFrom_cons.mpr ⟨h1, h2, h3, ih h4 (by omega) fun c hc => hm c (by simp [hc])⟩

/-- A write inside the array keeps the canonical form. -/
theorem wf_write (b : Byte) (h : wf m = true) (ha : a < Config.memSize) : wf (write m a b) = true := by
  by_cases hb : b = 0#8
  · simpa [wf, write, hb] using wfFrom_erase m a h
  · simpa [wf, write, hb] using wfFrom_insert _ a (wfFrom_erase m a h) (Nat.zero_le _) ha hb (erase_avoids m a)

/-- Below its first address a canonical memory reads 0x00. -/
theorem read_below_wfFrom {low : Nat} (h : wfFrom low m = true) {k : Nat} (hk : k < low) : m.read k = 0#8 := by
  induction m generalizing low with
  | nil => rfl
  | cons c rest ih =>
    obtain ⟨j, b⟩ := c
    obtain ⟨h1, _, _, h4⟩ := wfFrom_cons.mp h
    rw [read, if_neg (by omega)]
    exact ih h4 (by omega)

end Memory

end Sys2Proof.Machine
end

