-- ==== Sys2Proof/Laws/State.lean ====
section
/-! SUPPORT. Sys2Proof/Laws/State.lean: what each update of the state gives for each field, and the register file's
read-after-write laws. -/

namespace Sys2Proof.Machine

variable (s : State)

/-! ### `writeReg` -/

@[simp] theorem writeReg_regs (r : Reg) (v : Word) : (writeReg s r v).regs = s.regs.set r v := rfl
@[simp] theorem writeReg_ip (r : Reg) (v : Word) : (writeReg s r v).ip = s.ip := rfl
@[simp] theorem writeReg_zf (r : Reg) (v : Word) : (writeReg s r v).zf = s.zf := rfl
@[simp] theorem writeReg_sf (r : Reg) (v : Word) : (writeReg s r v).sf = s.sf := rfl
@[simp] theorem writeReg_mem (r : Reg) (v : Word) : (writeReg s r v).mem = s.mem := rfl
@[simp] theorem writeReg_buf (r : Reg) (v : Word) : (writeReg s r v).buf = s.buf := rfl
@[simp] theorem writeReg_policy (r : Reg) (v : Word) : (writeReg s r v).policy = s.policy := rfl
@[simp] theorem writeReg_status (r : Reg) (v : Word) : (writeReg s r v).status = s.status := rfl

/-! ### `advance` -/

@[simp] theorem advance_regs (n : Nat) : (advance n s).regs = s.regs := rfl
@[simp] theorem advance_ip (n : Nat) : (advance n s).ip = s.ip + BitVec.ofNat 16 n := rfl
@[simp] theorem advance_zf (n : Nat) : (advance n s).zf = s.zf := rfl
@[simp] theorem advance_sf (n : Nat) : (advance n s).sf = s.sf := rfl
@[simp] theorem advance_mem (n : Nat) : (advance n s).mem = s.mem := rfl
@[simp] theorem advance_buf (n : Nat) : (advance n s).buf = s.buf := rfl
@[simp] theorem advance_policy (n : Nat) : (advance n s).policy = s.policy := rfl
@[simp] theorem advance_status (n : Nat) : (advance n s).status = s.status := rfl

/-! ### `branchBy` -/

@[simp] theorem branchBy_regs (d : Word) : (branchBy d s).regs = s.regs := rfl
@[simp] theorem branchBy_ip (d : Word) : (branchBy d s).ip = s.ip + d := rfl
@[simp] theorem branchBy_zf (d : Word) : (branchBy d s).zf = s.zf := rfl
@[simp] theorem branchBy_sf (d : Word) : (branchBy d s).sf = s.sf := rfl
@[simp] theorem branchBy_mem (d : Word) : (branchBy d s).mem = s.mem := rfl
@[simp] theorem branchBy_buf (d : Word) : (branchBy d s).buf = s.buf := rfl
@[simp] theorem branchBy_policy (d : Word) : (branchBy d s).policy = s.policy := rfl
@[simp] theorem branchBy_status (d : Word) : (branchBy d s).status = s.status := rfl

/-! ### `setMem` -/

@[simp] theorem setMem_regs (m : Memory) : (setMem s m).regs = s.regs := rfl
@[simp] theorem setMem_ip (m : Memory) : (setMem s m).ip = s.ip := rfl
@[simp] theorem setMem_zf (m : Memory) : (setMem s m).zf = s.zf := rfl
@[simp] theorem setMem_sf (m : Memory) : (setMem s m).sf = s.sf := rfl
@[simp] theorem setMem_mem (m : Memory) : (setMem s m).mem = m := rfl
@[simp] theorem setMem_buf (m : Memory) : (setMem s m).buf = s.buf := rfl
@[simp] theorem setMem_policy (m : Memory) : (setMem s m).policy = s.policy := rfl
@[simp] theorem setMem_status (m : Memory) : (setMem s m).status = s.status := rfl

/-! ### `setStatus` -/

@[simp] theorem setStatus_regs (st : StepStatus) : (setStatus s st).regs = s.regs := rfl
@[simp] theorem setStatus_ip (st : StepStatus) : (setStatus s st).ip = s.ip := rfl
@[simp] theorem setStatus_zf (st : StepStatus) : (setStatus s st).zf = s.zf := rfl
@[simp] theorem setStatus_sf (st : StepStatus) : (setStatus s st).sf = s.sf := rfl
@[simp] theorem setStatus_mem (st : StepStatus) : (setStatus s st).mem = s.mem := rfl
@[simp] theorem setStatus_buf (st : StepStatus) : (setStatus s st).buf = s.buf := rfl
@[simp] theorem setStatus_policy (st : StepStatus) : (setStatus s st).policy = s.policy := rfl
@[simp] theorem setStatus_status (st : StepStatus) : (setStatus s st).status = st := rfl

/-! ### `setFlags` -/

@[simp] theorem setFlags_regs (r : Word) : (setFlags s r).regs = s.regs := rfl
@[simp] theorem setFlags_ip (r : Word) : (setFlags s r).ip = s.ip := rfl
@[simp] theorem setFlags_zf (r : Word) : (setFlags s r).zf = decide (r = 0#16) := rfl
@[simp] theorem setFlags_sf (r : Word) : (setFlags s r).sf = r.msb := rfl
@[simp] theorem setFlags_mem (r : Word) : (setFlags s r).mem = s.mem := rfl
@[simp] theorem setFlags_buf (r : Word) : (setFlags s r).buf = s.buf := rfl
@[simp] theorem setFlags_policy (r : Word) : (setFlags s r).policy = s.policy := rfl
@[simp] theorem setFlags_status (r : Word) : (setFlags s r).status = s.status := rfl

/-! ### The register file -/

/-- A written register reads back (R94). -/
@[simp] theorem RegFile.get_set_same (f : RegFile) (r : Reg) (v : Word) : (f.set r v).get r = v := by
  cases r <;> rfl

/-- No other register changes (R94). -/
theorem RegFile.get_set_other (f : RegFile) (v : Word) {r q : Reg} (h : q ≠ r) : (f.set r v).get q = f.get q := by
  cases r <;> cases q <;> first | rfl | exact absurd rfl h

/-- `readReg` sees only the register file. -/
theorem readReg_congr {s t : State} (h : t.regs = s.regs) (r : Reg) : readReg t r = readReg s r := by
  rw [readReg, readReg, h]

@[simp] theorem readReg_writeReg_same (r : Reg) (v : Word) : readReg (writeReg s r v) r = v := by
  simp [readReg]

theorem readReg_writeReg_other (v : Word) {r q : Reg} (h : q ≠ r) : readReg (writeReg s r v) q = readReg s q := by
  simp [readReg, RegFile.get_set_other _ _ h]

@[simp] theorem readReg_advance (n : Nat) (r : Reg) : readReg (advance n s) r = readReg s r := rfl
@[simp] theorem readReg_branchBy (d : Word) (r : Reg) : readReg (branchBy d s) r = readReg s r := rfl
@[simp] theorem readReg_setMem (m : Memory) (r : Reg) : readReg (setMem s m) r = readReg s r := rfl
@[simp] theorem readReg_setStatus (st : StepStatus) (r : Reg) : readReg (setStatus s st) r = readReg s r := rfl
@[simp] theorem readReg_setFlags (v : Word) (r : Reg) : readReg (setFlags s v) r = readReg s r := rfl

/-- `finish` completes the step with the given status. -/
theorem finish_eq_next {st : StepStatus} {t : State} : finish st s = .next t ↔ t = setStatus s st := by
  simp [finish, eq_comm]

end Sys2Proof.Machine
end

