-- ==== Sys2Proof/Laws/Ops.lean ====
section
/-! SUPPORT. Sys2Proof/Laws/Ops.lean: one lemma for each shared operation that says once everything it can do. -/

namespace Sys2Proof.Machine

/-! ### Memory access -/

/-- `CheckEA` passes exactly in range, and gives the address (R35). -/
theorem checkEA_ok {ea : Int} {n a : Nat} : checkEA ea n = .ok a ↔ 0 ≤ ea ∧ ea + n - 1 ≤ 65535 ∧ a = ea.toNat := by
  unfold checkEA
  split
  · rename_i h
    simp only [Config.maxAddress] at h
    simp
    omega
  · rename_i h
    simp only [Config.maxAddress] at h
    simp only [Except.ok.injEq]
    omega

/-- `CheckEA` fails exactly out of range, with the report of R205. -/
theorem checkEA_error {ea : Int} {n : Nat} {f : Fault} :
    checkEA ea n = .error f ↔ (ea < 0 ∨ 65535 < ea + n - 1) ∧ f = .addressOutOfRange ea n := by
  unfold checkEA
  split
  · rename_i h
    simp only [Config.maxAddress] at h
    simp only [Except.error.injEq, eq_comm (b := f)]
    constructor
    · exact fun e => ⟨by omega, e⟩
    · exact fun e => e.2
  · rename_i h
    simp only [Config.maxAddress] at h
    simp
    omega

theorem memRead16_ok {s : State} {ea : Int} {v : Word} :
    memRead16 s ea = .ok v ↔
      0 ≤ ea ∧ ea ≤ 65534 ∧ v = wordOf (s.mem.read ea.toNat) (s.mem.read (ea.toNat + 1)) := by
  unfold memRead16
  cases h : checkEA ea 2 with
  | error f =>
    have := (checkEA_error.mp h).1
    simp
    omega
  | ok a =>
    obtain ⟨h1, h2, rfl⟩ := checkEA_ok.mp h
    simp only [Except.ok.injEq]
    exact ⟨fun e => ⟨h1, by omega, e.symm⟩, fun e => e.2.2.symm⟩

theorem memRead16_error {s : State} {ea : Int} {f : Fault} :
    memRead16 s ea = .error f ↔ (ea < 0 ∨ 65534 < ea) ∧ f = .addressOutOfRange ea 2 := by
  unfold memRead16
  cases h : checkEA ea 2 with
  | error g =>
    obtain ⟨h1, rfl⟩ := checkEA_error.mp h
    simp only [Except.error.injEq, eq_comm (b := f)]
    exact ⟨fun e => ⟨by omega, e⟩, fun e => e.2⟩
  | ok a =>
    have := checkEA_ok.mp h
    simp
    omega

theorem memWrite16_ok {s t : State} {ea : Int} {v : Word} :
    memWrite16 s ea v = .ok t ↔
      0 ≤ ea ∧ ea ≤ 65534 ∧
        t = setMem s ((s.mem.write ea.toNat (lowByte v)).write (ea.toNat + 1) (highByte v)) := by
  unfold memWrite16
  cases h : checkEA ea 2 with
  | error f =>
    have := (checkEA_error.mp h).1
    simp
    omega
  | ok a =>
    obtain ⟨h1, h2, rfl⟩ := checkEA_ok.mp h
    simp only [Except.ok.injEq]
    exact ⟨fun e => ⟨h1, by omega, e.symm⟩, fun e => e.2.2.symm⟩

theorem memWrite16_error {s : State} {ea : Int} {v : Word} {f : Fault} :
    memWrite16 s ea v = .error f ↔ (ea < 0 ∨ 65534 < ea) ∧ f = .addressOutOfRange ea 2 := by
  unfold memWrite16
  cases h : checkEA ea 2 with
  | error g =>
    obtain ⟨h1, rfl⟩ := checkEA_error.mp h
    simp only [Except.error.injEq, eq_comm (b := f)]
    exact ⟨fun e => ⟨by omega, e⟩, fun e => e.2⟩
  | ok a =>
    have := checkEA_ok.mp h
    simp
    omega

theorem memWrite8_ok {s t : State} {ea : Int} {b : Byte} :
    memWrite8 s ea b = .ok t ↔ 0 ≤ ea ∧ ea ≤ 65535 ∧ t = setMem s (s.mem.write ea.toNat b) := by
  unfold memWrite8
  cases h : checkEA ea 1 with
  | error f =>
    have := (checkEA_error.mp h).1
    simp
    omega
  | ok a =>
    obtain ⟨h1, h2, rfl⟩ := checkEA_ok.mp h
    simp only [Except.ok.injEq]
    exact ⟨fun e => ⟨h1, by omega, e.symm⟩, fun e => e.2.2.symm⟩

/-- The two writes of a word, byte by byte. -/
theorem read_wordWrite (m : Memory) (a k : Nat) (low high : Byte) :
    ((m.write a low).write (a + 1) high).read k = if k = a then low else if k = a + 1 then high else m.read k := by
  by_cases h1 : k = a + 1
  · subst h1
    simp
  · rw [Memory.read_write_other _ _ _ h1]
    by_cases h2 : k = a
    · simp [h2]
    · simp [h1, h2, Memory.read_write_other _ _ _ h2]

/-- A word write in the low 64 KiB keeps the canonical form. -/
theorem wf_wordWrite {m : Memory} {a : Nat} (low high : Byte) (h : m.wf = true) (ha : a ≤ 65534) :
    Memory.wf ((m.write a low).write (a + 1) high) = true :=
  Memory.wf_write _ _ _ (Memory.wf_write _ _ _ h (by simp only [Config.memSize]; omega))
    (by simp only [Config.memSize]; omega)

/-! ### Operands -/

/-- Everything a write to a place can do: a register, or a word of memory at an address in range (R97). -/
theorem writePlace_ok {p : Place} {v : Word} {s s1 t : State} (h : writePlace p v s s1 = .ok t) :
    (∃ r, p = .register r ∧ t = writeReg s1 r v) ∨
    ∃ m, p = .memory m ∧ 0 ≤ effectiveAddress m s ∧ effectiveAddress m s ≤ 65534 ∧
      t = setMem s1 ((s1.mem.write (effectiveAddress m s).toNat (lowByte v)).write
        ((effectiveAddress m s).toNat + 1) (highByte v)) := by
  cases p with
  | register r => exact .inl ⟨r, rfl, by simpa [writePlace] using h.symm⟩
  | memory m => exact .inr ⟨m, rfl, memWrite16_ok.mp h⟩

/-- Everything a completed `mov` does: word width, a readable source, the destination written (R120, R130). -/
theorem movTo_next {w : Width} {dst : Place} {src : Operand} {len : Nat} {s t : State}
    (h : movTo w dst src len s = .next t) :
    w = .word ∧ ∃ v u, readOperand src s = .ok v ∧ writePlace dst v s (advance len s) = .ok u ∧ t = setStatus u .ok := by
  cases w with
  | byte => simp [movTo] at h
  | word =>
    simp only [movTo] at h
    split at h
    · cases h
    · rename_i v hv
      split at h
      · cases h
      · rename_i u hu
        exact ⟨rfl, v, u, hv, hu, (finish_eq_next _).mp h⟩

/-- Everything a completed `add`, `sub` or `cmp` does: word width, a register destination, and a register or immediate source
`b` (R121 to R123, R131 to R133). -/
theorem aluTo_next {op : AluOp} {w : Width} {dst : Place} {src : Operand} {len : Nat} {s t : State}
    (h : aluTo op w dst src len s = .next t) :
    w = .word ∧ ∃ r b, dst = .register r ∧ src.isMemory = false ∧ readOperand src s = .ok b ∧
      t = setStatus (aluCommit op r (readReg s r) b (advance len s)) .ok := by
  cases w with
  | byte => simp [aluTo] at h
  | word =>
    cases dst with
    | memory m => cases src <;> simp [aluTo] at h
    | register r =>
      cases src with
      | memory m => simp [aluTo] at h
      | register q => exact ⟨rfl, r, _, rfl, rfl, rfl, (finish_eq_next _).mp h⟩
      | immediate v size => exact ⟨rfl, r, _, rfl, rfl, rfl, (finish_eq_next _).mp h⟩

/-- Everything a completed accumulator operation does (R142 to R144). -/
theorem aluAcc_next {op : AluOp} {w : Width} {imm : ImmField} {len : Nat} {s t : State}
    (h : aluAcc op w imm len s = .next t) :
    w = .word ∧ t = setStatus (aluCommit op .ax (readReg s .ax) (imm.value false w) (advance len s)) .ok := by
  cases w with
  | byte => simp [aluAcc] at h
  | word => exact ⟨rfl, (finish_eq_next _).mp h⟩

/-- Everything the step of a handler-less mnemonic can do (R107). -/
theorem noHandlerStep_cases (m : Mnemonic) (s : State) :
    (s.policy = .advanceOnly ∧ noHandlerStep m s = .next (setStatus (advance 2 s) .noHandler)) ∨
    (s.policy = .refuse ∧ noHandlerStep m s = .refused (.noHandler m)) := by
  cases h : s.policy <;> simp [noHandlerStep, h, finish]

/-! ### The ALU's commit -/

section
variable (op : AluOp) (r : Reg) (a b : Word) (s : State)

@[simp] theorem aluCommit_ip : (aluCommit op r a b s).ip = s.ip := by cases op <;> rfl
@[simp] theorem aluCommit_mem : (aluCommit op r a b s).mem = s.mem := by cases op <;> rfl
@[simp] theorem aluCommit_buf : (aluCommit op r a b s).buf = s.buf := by cases op <;> rfl
@[simp] theorem aluCommit_policy : (aluCommit op r a b s).policy = s.policy := by cases op <;> rfl
@[simp] theorem aluCommit_zf : (aluCommit op r a b s).zf = decide (aluResult op a b = 0#16) := by cases op <;> rfl
@[simp] theorem aluCommit_sf : (aluCommit op r a b s).sf = (aluResult op a b).msb := by cases op <;> rfl

/-- No register but the destination changes. -/
theorem readReg_aluCommit_other {q : Reg} (h : q ≠ r) : readReg (aluCommit op r a b s) q = readReg s q := by
  cases op <;> simp [aluCommit, readReg_writeReg_other _ _ h]

/-- `cmp` changes no register (R104). -/
theorem readReg_aluCommit_cmp (q : Reg) : readReg (aluCommit .cmp r a b s) q = readReg s q := rfl

end

end Sys2Proof.Machine
end

