-- ==== Sys2Proof/Laws/Exec.lean ====
section
/-! SUPPORT. Sys2Proof/Laws/Exec.lean: what `exec` and `step` can do, said once: the four ways an instruction completes, and
the inversion of a step; and the small lemmas of the terms of Safety.lean about fields. -/

namespace Sys2Proof.Machine

/-- The mnemonic of an ALU operation. -/
def AluOp.mnemonic : AluOp → Mnemonic
  | .add => .add
  | .sub => .sub
  | .cmp => .cmp

/-- The four ways an instruction completes from `s` in `t` (R91): a word `mov`, a word `add`, `sub` or `cmp` on a register,
`jnz`, and a handler-less mnemonic under the default policy. -/
inductive Completes (i : Instr) (s t : State) : Prop where
  | mov (dst : Place) (src : Operand) (v : Word) (u : State) (hm : i.record.mnemonic = .mov)
      (hw : i.record.width = .word) (ho : i.record.operands = [dst.operand, src]) (hr : readOperand src s = .ok v)
      (hu : writePlace dst v s (advance i.len s) = .ok u) (ht : t = setStatus u .ok)
  | alu (op : AluOp) (r : Reg) (src : Operand) (b : Word) (hm : i.record.mnemonic = AluOp.mnemonic op)
      (hw : i.record.width = .word) (ho : i.record.operands = [.register r, src]) (hn : src.isMemory = false)
      (hr : readOperand src s = .ok b) (ht : t = setStatus (aluCommit op r (readReg s r) b (advance i.len s)) .ok)
  | jnz (d : Byte) (hi : i = .jnz d)
      (ht : t = setStatus (if s.zf then advance 2 s else branchBy (sext16 d) (advance 2 s)) .ok)
  | handlerless (d : Word) (hm : isHandlerless i = true) (hl : i.len = 2) (ho : i.record.operands = [.immediate d none])
      (hp : s.policy = .advanceOnly) (ht : t = setStatus (advance 2 s) .noHandler)

variable {s t : State}

theorem completes_movTo {i : Instr} {w : Width} {dst : Place} {src : Operand} (hm : i.record.mnemonic = .mov)
    (hw : i.record.width = w) (ho : i.record.operands = [dst.operand, src])
    (h : movTo w dst src i.len s = .next t) : Completes i s t := by
  obtain ⟨rfl, v, u, hr, hu, ht⟩ := movTo_next h
  exact .mov dst src v u hm hw ho hr hu ht

theorem completes_aluTo {i : Instr} {op : AluOp} {w : Width} {dst : Place} {src : Operand}
    (hm : i.record.mnemonic = AluOp.mnemonic op) (hw : i.record.width = w)
    (ho : i.record.operands = [dst.operand, src]) (h : aluTo op w dst src i.len s = .next t) : Completes i s t := by
  obtain ⟨rfl, r, b, rfl, hn, hr, ht⟩ := aluTo_next h
  exact .alu op r src b hm hw ho hn hr ht

theorem completes_aluAcc {i : Instr} {op : AluOp} {w : Width} {imm : ImmField}
    (hm : i.record.mnemonic = AluOp.mnemonic op) (hw : i.record.width = w)
    (ho : i.record.operands = [.register .ax, .immediate (imm.value false w) none])
    (h : aluAcc op w imm i.len s = .next t) : Completes i s t := by
  obtain ⟨rfl, ht⟩ := aluAcc_next h
  exact .alu op .ax _ _ hm hw ho rfl rfl ht

theorem completes_noHandler {i : Instr} {m : Mnemonic} {d : Word} (hm : isHandlerless i = true) (hl : i.len = 2)
    (ho : i.record.operands = [.immediate d none]) (h : noHandlerStep m s = .next t) : Completes i s t := by
  obtain ⟨hp, hs⟩ | ⟨_, hs⟩ := noHandlerStep_cases m s
  · rw [hs] at h
    exact .handlerless d hm hl ho hp (Host.Outcome.next.inj h).symm
  · rw [hs] at h
    cases h

theorem completes_movAccMem {w : Width} {a : Word} (h : execMovAccMem w a s = .next t) :
    Completes (.movAccMem w a) s t := by
  cases w with
  | byte => cases h
  | word =>
    simp only [execMovAccMem] at h
    split at h
    · cases h
    · rename_i v hv
      exact .mov (.register .ax) (.memory ⟨.direct, a⟩) v _ rfl rfl rfl hv rfl ((finish_eq_next _).mp h)

theorem completes_movMemAcc {w : Width} {a : Word} (h : execMovMemAcc w a s = .next t) :
    Completes (.movMemAcc w a) s t := by
  cases w with
  | byte => cases h
  | word =>
    simp only [execMovMemAcc] at h
    split at h
    · cases h
    · rename_i u hu
      exact .mov (.memory ⟨.direct, a⟩) (.register .ax) _ u rfl rfl rfl rfl hu ((finish_eq_next _).mp h)

theorem completes_movRegImm {w : Width} {r : Reg} {imm : ImmField} (h : execMovRegImm w r imm s = .next t) :
    Completes (.movRegImm w r imm) s t := by
  cases w with
  | byte => cases h
  | word => exact .mov (.register r) _ _ _ rfl rfl rfl rfl rfl ((finish_eq_next _).mp h)

/-- Every completed instruction completes in one of the four ways. -/
theorem exec_next {i : Instr} (h : exec i s = .next t) : Completes i s t := by
  cases i with
  | movRm d w reg rm => exact completes_movTo rfl rfl rfl h
  | movIm w ignored rm imm => exact completes_movTo rfl rfl rfl h
  | addRm d w reg rm => exact completes_aluTo (op := .add) rfl rfl rfl h
  | subRm d w reg rm => exact completes_aluTo (op := .sub) rfl rfl rfl h
  | cmpRm d w reg rm => exact completes_aluTo (op := .cmp) rfl rfl rfl h
  | addIm sx w rm imm => exact completes_aluTo (op := .add) rfl rfl rfl h
  | subIm sx w rm imm => exact completes_aluTo (op := .sub) rfl rfl rfl h
  | cmpIm sx w rm imm => exact completes_aluTo (op := .cmp) rfl rfl rfl h
  | movAccMem w a => exact completes_movAccMem h
  | movMemAcc w a => exact completes_movMemAcc h
  | addAcc w imm => exact completes_aluAcc (op := .add) rfl rfl rfl h
  | subAcc w imm => exact completes_aluAcc (op := .sub) rfl rfl rfl h
  | cmpAcc w imm => exact completes_aluAcc (op := .cmp) rfl rfl rfl h
  | movRegImm w r imm => exact completes_movRegImm h
  | jnz d => exact .jnz d rfl ((finish_eq_next _).mp h)
  | jo d => exact completes_noHandler (m := .jo) (d := sext16 d) rfl rfl rfl h
  | jno d => exact completes_noHandler (m := .jno) (d := sext16 d) rfl rfl rfl h
  | jb d => exact completes_noHandler (m := .jb) (d := sext16 d) rfl rfl rfl h
  | jnb d => exact completes_noHandler (m := .jnb) (d := sext16 d) rfl rfl rfl h
  | je d => exact completes_noHandler (m := .je) (d := sext16 d) rfl rfl rfl h
  | jbe d => exact completes_noHandler (m := .jbe) (d := sext16 d) rfl rfl rfl h
  | ja d => exact completes_noHandler (m := .ja) (d := sext16 d) rfl rfl rfl h
  | js d => exact completes_noHandler (m := .js) (d := sext16 d) rfl rfl rfl h
  | jns d => exact completes_noHandler (m := .jns) (d := sext16 d) rfl rfl rfl h
  | jp d => exact completes_noHandler (m := .jp) (d := sext16 d) rfl rfl rfl h
  | jnp d => exact completes_noHandler (m := .jnp) (d := sext16 d) rfl rfl rfl h
  | jl d => exact completes_noHandler (m := .jl) (d := sext16 d) rfl rfl rfl h
  | jnl d => exact completes_noHandler (m := .jnl) (d := sext16 d) rfl rfl rfl h
  | jle d => exact completes_noHandler (m := .jle) (d := sext16 d) rfl rfl rfl h
  | jg d => exact completes_noHandler (m := .jg) (d := sext16 d) rfl rfl rfl h
  | loopnz d => exact completes_noHandler (m := .loopnz) (d := sext16 d) rfl rfl rfl h
  | loopz d => exact completes_noHandler (m := .loopz) (d := sext16 d) rfl rfl rfl h
  | loop d => exact completes_noHandler (m := .loop) (d := sext16 d) rfl rfl rfl h
  | jcxz d => exact completes_noHandler (m := .jcxz) (d := sext16 d) rfl rfl rfl h

/-- A completed step ran an instruction its buffer decodes to (R90). -/
theorem step_next (h : step s = .next t) :
    s.ip.toNat < s.buf.length ∧ ∃ i n, decode s.buf s.ip.toNat = .ok (i, n) ∧ exec i s = .next t := by
  unfold step at h
  split at h
  · cases h
  · rename_i i hi
    unfold fetchDecode at hi
    split at hi
    · cases hi
    · split at hi
      · cases hi
      · split at hi
        · cases hi
        · rename_i j n hd
          cases hi
          exact ⟨by omega, _, n, hd, h⟩

/-- The fields of an instruction make up its length (R74). -/
theorem fieldLengths_sum (i : Instr) : (fieldLengths i).sum = i.len := by
  cases i <;> simp [fieldLengths, Instr.len] <;> omega

/-- A field starts at or before each of its bytes. -/
theorem fieldStart_le (fields : List Nat) (k : Nat) : fieldStart fields k ≤ k := by
  induction fields generalizing k with
  | nil => exact Nat.zero_le k
  | cons n rest ih =>
    have := ih (k - n)
    simp only [fieldStart]
    split <;> omega

/-- With `ip` inside the buffer, the step is the decoded instruction's (R90). -/
theorem step_decoded {i : Instr} {n : Nat} (hp : s.ip.toNat < s.buf.length)
    (hd : decode s.buf s.ip.toNat = .ok (i, n)) : step s = exec i s := by
  have h : fetchDecode s = .ok i := by
    rw [fetchDecode, if_neg (by omega), if_neg (by omega), hd]
  rw [step, h]

end Sys2Proof.Machine
end

