-- ==== Sys2Proof/Laws/PerInstr.lean ====
section
/-! SUPPORT. Sys2Proof/Laws/PerInstr.lean: facts about every instruction as syntax, one lemma per constructor.
`EncodedLength` (30_encoding.md R74): a well-formed instruction encodes to as many bytes as its length says, 2 to 6. -/

namespace Sys2Proof.Laws.EncodedLength

/-- The encoding has the instruction's length, 2 to 6 bytes (R74). -/
def Statement (i : Instr) : Prop := i.wf = true → (encode i).length = i.len ∧ 2 ≤ i.len ∧ i.len ≤ 6

theorem dispLength_le (rm : RmOperand) : rm.dispLength ≤ 2 := by cases rm <;> simp [RmOperand.dispLength]

theorem two_in_range : 2 ≤ 2 ∧ 2 ≤ 6 := by decide

theorem three_in_range : 2 ≤ 3 ∧ 3 ≤ 6 := by decide

theorem immLength_bounds (s : Bool) (w : Width) : 1 ≤ immLength s w ∧ immLength s w ≤ 2 := by
  cases s <;> cases w <;> decide

/-- Format RM (R51). -/
theorem rm_length (opcode : BitVec 6) (d : Dir) (w : Width) (reg : Reg) (rm : RmOperand) :
    (rmBytes opcode d w reg rm).length = 2 + rm.dispLength ∧ 2 ≤ 2 + rm.dispLength ∧ 2 + rm.dispLength ≤ 6 := by
  have := dispLength_le rm
  simp only [rmBytes, List.length_cons, modRmBytes_length]
  omega

/-- Format IM after the opcode byte (R52). -/
theorem im_length (op : Byte) (reg : BitVec 3) (s : Bool) (w : Width) (rm : RmOperand) (imm : ImmField)
    (h : imm.wf (immWide s w) = true) :
    (op :: modRmBytes reg rm ++ imm.bytes).length = 2 + rm.dispLength + immLength s w ∧
      2 ≤ 2 + rm.dispLength + immLength s w ∧ 2 + rm.dispLength + immLength s w ≤ 6 := by
  have h1 := dispLength_le rm
  have h2 := immLength_bounds s w
  simp only [List.cons_append, List.length_cons, List.length_append, modRmBytes_length, imm.bytes_length s w h]
  omega

/-- An opcode byte and an immediate (R53, R54). -/
theorem imm_length (op : Byte) (w : Width) (imm : ImmField) (h : imm.wf (immWide false w) = true) :
    (op :: imm.bytes).length = 1 + immLength false w ∧ 2 ≤ 1 + immLength false w ∧ 1 + immLength false w ≤ 6 := by
  have h2 := immLength_bounds false w
  simp only [List.length_cons, imm.bytes_length false w h]
  omega

theorem movRm (d : Dir) (w : Width) (reg : Reg) (rm : RmOperand) : Statement (.movRm d w reg rm) :=
  fun _ => rm_length _ d w reg rm

theorem addRm (d : Dir) (w : Width) (reg : Reg) (rm : RmOperand) : Statement (.addRm d w reg rm) :=
  fun _ => rm_length _ d w reg rm

theorem subRm (d : Dir) (w : Width) (reg : Reg) (rm : RmOperand) : Statement (.subRm d w reg rm) :=
  fun _ => rm_length _ d w reg rm

theorem cmpRm (d : Dir) (w : Width) (reg : Reg) (rm : RmOperand) : Statement (.cmpRm d w reg rm) :=
  fun _ => rm_length _ d w reg rm

theorem movIm (w : Width) (ignored : BitVec 3) (rm : RmOperand) (imm : ImmField) : Statement (.movIm w ignored rm imm) :=
  fun h => im_length _ ignored false w rm imm (Bool.and_eq_true_iff.mp h).2

theorem addIm (s : Bool) (w : Width) (rm : RmOperand) (imm : ImmField) : Statement (.addIm s w rm imm) :=
  fun h => im_length _ _ s w rm imm (Bool.and_eq_true_iff.mp h).2

theorem subIm (s : Bool) (w : Width) (rm : RmOperand) (imm : ImmField) : Statement (.subIm s w rm imm) :=
  fun h => im_length _ _ s w rm imm (Bool.and_eq_true_iff.mp h).2

theorem cmpIm (s : Bool) (w : Width) (rm : RmOperand) (imm : ImmField) : Statement (.cmpIm s w rm imm) :=
  fun h => im_length _ _ s w rm imm (Bool.and_eq_true_iff.mp h).2

theorem movAccMem (w : Width) (addr : Word) : Statement (.movAccMem w addr) := fun _ => ⟨rfl, three_in_range⟩

theorem movMemAcc (w : Width) (addr : Word) : Statement (.movMemAcc w addr) := fun _ => ⟨rfl, three_in_range⟩

theorem addAcc (w : Width) (imm : ImmField) : Statement (.addAcc w imm) := fun h => imm_length _ w imm h

theorem subAcc (w : Width) (imm : ImmField) : Statement (.subAcc w imm) := fun h => imm_length _ w imm h

theorem cmpAcc (w : Width) (imm : ImmField) : Statement (.cmpAcc w imm) := fun h => imm_length _ w imm h

theorem movRegImm (w : Width) (reg : Reg) (imm : ImmField) : Statement (.movRegImm w reg imm) := fun h => imm_length _ w imm h

theorem jo (disp : Byte) : Statement (.jo disp) := fun _ => ⟨rfl, two_in_range⟩
theorem jno (disp : Byte) : Statement (.jno disp) := fun _ => ⟨rfl, two_in_range⟩
theorem jb (disp : Byte) : Statement (.jb disp) := fun _ => ⟨rfl, two_in_range⟩
theorem jnb (disp : Byte) : Statement (.jnb disp) := fun _ => ⟨rfl, two_in_range⟩
theorem je (disp : Byte) : Statement (.je disp) := fun _ => ⟨rfl, two_in_range⟩
theorem jnz (disp : Byte) : Statement (.jnz disp) := fun _ => ⟨rfl, two_in_range⟩
theorem jbe (disp : Byte) : Statement (.jbe disp) := fun _ => ⟨rfl, two_in_range⟩
theorem ja (disp : Byte) : Statement (.ja disp) := fun _ => ⟨rfl, two_in_range⟩
theorem js (disp : Byte) : Statement (.js disp) := fun _ => ⟨rfl, two_in_range⟩
theorem jns (disp : Byte) : Statement (.jns disp) := fun _ => ⟨rfl, two_in_range⟩
theorem jp (disp : Byte) : Statement (.jp disp) := fun _ => ⟨rfl, two_in_range⟩
theorem jnp (disp : Byte) : Statement (.jnp disp) := fun _ => ⟨rfl, two_in_range⟩
theorem jl (disp : Byte) : Statement (.jl disp) := fun _ => ⟨rfl, two_in_range⟩
theorem jnl (disp : Byte) : Statement (.jnl disp) := fun _ => ⟨rfl, two_in_range⟩
theorem jle (disp : Byte) : Statement (.jle disp) := fun _ => ⟨rfl, two_in_range⟩
theorem jg (disp : Byte) : Statement (.jg disp) := fun _ => ⟨rfl, two_in_range⟩
theorem loopnz (disp : Byte) : Statement (.loopnz disp) := fun _ => ⟨rfl, two_in_range⟩
theorem loopz (disp : Byte) : Statement (.loopz disp) := fun _ => ⟨rfl, two_in_range⟩
theorem loop (disp : Byte) : Statement (.loop disp) := fun _ => ⟨rfl, two_in_range⟩
theorem jcxz (disp : Byte) : Statement (.jcxz disp) := fun _ => ⟨rfl, two_in_range⟩

end Sys2Proof.Laws.EncodedLength
end

