-- ==== Sys2Proof/Tests/Slice0.lean ====
section
/-! SUPPORT. Sys2Proof/Tests/Slice0.lean: the model against 95_test_vectors.md (sections and row numbers are that file's; its
own words: derived from the rules, not from a run), ill-formed terms refused, and a witness for the hypotheses of each
statement. -/

namespace Sys2Proof.Tests

open Sys2Proof Sys2Proof.Machine

/-! ### Helpers -/

/-- A start state: the program at offset 0, and the registers. -/
def start (regs : RegFile) (program : List Byte) : State := { State.load program with regs := regs }

/-- All registers zero. -/
def zero : RegFile := State.reset.regs

/-- The outcome is a next state that passes the check. -/
def gives (r : Result) (check : State → Bool) : Bool :=
  match r with
  | .next t => check t
  | .fault _ => false
  | .refused _ => false

/-- The listing lines of a buffer. -/
def listing (buf : List Byte) : List String := (decodeAll buf).1.map fun y => render y.1.record

/-! ### Ill-formed terms are refused -/

/-- R61: `mod = 00` with base `bp` alone is no encoding. -/
theorem test_wf_refuses_bp_alone :
    (Instr.movRm .toReg .word .ax (.mem0 .bp)).wf = false ∧ (Instr.addIm true .word (.mem0 .bp) (.imm8 1#8)).wf = false ∧
      (Instr.movIm .word 0#3 (.mem0 .bp) (.imm16 1#16)).wf = false := by decide

/-- R64: one immediate byte where two are dictated. -/
theorem test_wf_refuses_a_missing_byte :
    (Instr.movIm .word 0#3 (.reg .ax) (.imm8 5#8)).wf = false ∧ (Instr.addAcc .word (.imm8 5#8)).wf = false ∧
      (Instr.movRegImm .word .ax (.imm8 5#8)).wf = false ∧ (Instr.subIm false .word (.reg .ax) (.imm8 5#8)).wf = false := by decide

/-- R64: two immediate bytes where one is dictated, by `W = 0` or by `S = 1`. -/
theorem test_wf_refuses_an_extra_byte :
    (Instr.movRegImm .byte .ax (.imm16 5#16)).wf = false ∧ (Instr.cmpAcc .byte (.imm16 5#16)).wf = false ∧
      (Instr.addIm true .word (.reg .ax) (.imm16 5#16)).wf = false ∧
      (Instr.cmpIm true .byte (.reg .ax) (.imm16 5#16)).wf = false := by decide

/-! ### Words written out from the encodings (section 2; the opcode values are general knowledge, log 11) -/

/-- 2.1. -/
theorem test_decode_regmem :
    decode [0x89#8, 0xD9#8] 0 = .ok (.movRm .toRm .word .bx (.reg .cx), 2) ∧
    decode [0x8B#8, 0xCB#8] 0 = .ok (.movRm .toReg .word .cx (.reg .bx), 2) ∧
    decode [0x88#8, 0xE0#8] 0 = .ok (.movRm .toRm .byte .sp (.reg .ax), 2) ∧
    decode [0x8B#8, 0x4E#8, 0xFE#8] 0 = .ok (.movRm .toReg .word .cx (.mem8 .bp 0xFE#8), 3) ∧
    decode [0x89#8, 0x0E#8, 0xEC#8, 0x03#8] 0 = .ok (.movRm .toRm .word .cx (.direct 1004#16), 4) ∧
    decode [0x03#8, 0xC3#8] 0 = .ok (.addRm .toReg .word .ax (.reg .bx), 2) ∧
    decode [0x29#8, 0xD8#8] 0 = .ok (.subRm .toRm .word .bx (.reg .ax), 2) ∧
    decode [0x39#8, 0xD8#8] 0 = .ok (.cmpRm .toRm .word .bx (.reg .ax), 2) := by decide

/-- 2.1: the eight `rm` values under `mod = 00`. -/
theorem test_decode_mod0 :
    [0x00#8, 0x01#8, 0x02#8, 0x03#8, 0x04#8, 0x05#8, 0x06#8, 0x07#8].map
      (fun m => listing [0x8B#8, m] ++ listing [0x8B#8, m, 0x34#8, 0x12#8]) =
    [["mov ax, [bx + si]", "mov ax, [bx + si]"], ["mov ax, [bx + di]", "mov ax, [bx + di]"],
      ["mov ax, [bp + si]", "mov ax, [bp + si]"], ["mov ax, [bp + di]", "mov ax, [bp + di]"],
      ["mov ax, [si]", "mov ax, [si]"], ["mov ax, [di]", "mov ax, [di]"],
      ["mov ax, [4660]"], ["mov ax, [bx]", "mov ax, [bx]"]] := by decide

/-- 2.2, one byte and six bytes of `mod`, `S`, displacement and immediate. -/
theorem test_decode_immediate_to_regmem :
    decode [0xC6#8, 0x47#8, 0x02#8, 0x07#8] 0 = .ok (.movIm .byte 0#3 (.mem8 .bx 2#8) (.imm8 7#8), 4) ∧
    decode [0xC7#8, 0x86#8, 0x00#8, 0x01#8, 0x34#8, 0x12#8] 0 =
      .ok (.movIm .word 0#3 (.mem16 .bp 0x0100#16) (.imm16 0x1234#16), 6) ∧
    decode [0x83#8, 0xC3#8, 0x05#8] 0 = .ok (.addIm true .word (.reg .bx) (.imm8 5#8), 3) ∧
    decode [0x81#8, 0xC0#8, 0xFF#8, 0x00#8] 0 = .ok (.addIm false .word (.reg .ax) (.imm16 255#16), 4) ∧
    decode [0x82#8, 0xC3#8, 0xFF#8] 0 = .ok (.addIm true .byte (.reg .bx) (.imm8 0xFF#8), 3) ∧
    decode [0x83#8, 0xE8#8, 0xFF#8] 0 = .ok (.subIm true .word (.reg .ax) (.imm8 0xFF#8), 3) ∧
    decode [0x83#8, 0x3E#8, 0xE8#8, 0x03#8, 0x02#8] 0 = .ok (.cmpIm true .word (.direct 1000#16) (.imm8 2#8), 5) := by
  decide

/-- 2.3 and 2.4. -/
theorem test_decode_accumulator_and_short_mov :
    decode [0xA1#8, 0xEC#8, 0x03#8] 0 = .ok (.movAccMem .word 1004#16, 3) ∧
    decode [0xA0#8, 0xFB#8, 0x09#8] 0 = .ok (.movAccMem .byte 2555#16, 3) ∧
    decode [0xA3#8, 0x0F#8, 0x00#8] 0 = .ok (.movMemAcc .word 15#16, 3) ∧
    decode [0x05#8, 0xE8#8, 0x03#8] 0 = .ok (.addAcc .word (.imm16 1000#16), 3) ∧
    decode [0x2C#8, 0xF0#8] 0 = .ok (.subAcc .byte (.imm8 0xF0#8), 2) ∧
    decode [0x3D#8, 0x10#8, 0x00#8] 0 = .ok (.cmpAcc .word (.imm16 16#16), 3) ∧
    decode [0xBB#8, 0xE8#8, 0x03#8] 0 = .ok (.movRegImm .word .bx (.imm16 1000#16), 3) ∧
    decode [0xB5#8, 0xF4#8] 0 = .ok (.movRegImm .byte .bp (.imm8 0xF4#8), 2) := by decide

/-- 2.5 and the table of 45_jumps_loops.md: all twenty, in the order of their first bytes. -/
theorem test_decode_jumps :
    [0x70#8, 0x71#8, 0x72#8, 0x73#8, 0x74#8, 0x75#8, 0x76#8, 0x77#8, 0x78#8, 0x79#8, 0x7A#8, 0x7B#8, 0x7C#8, 0x7D#8,
      0x7E#8, 0x7F#8, 0xE0#8, 0xE1#8, 0xE2#8, 0xE3#8].map (fun op => (decodeTableWord 16 (0xFE00 + op.toNat))) =
    [some (.jo 0xFE#8), some (.jno 0xFE#8), some (.jb 0xFE#8), some (.jnb 0xFE#8), some (.je 0xFE#8), some (.jnz 0xFE#8),
      some (.jbe 0xFE#8), some (.ja 0xFE#8), some (.js 0xFE#8), some (.jns 0xFE#8), some (.jp 0xFE#8), some (.jnp 0xFE#8),
      some (.jl 0xFE#8), some (.jnl 0xFE#8), some (.jle 0xFE#8), some (.jg 0xFE#8), some (.loopnz 0xFE#8),
      some (.loopz 0xFE#8), some (.loop 0xFE#8), some (.jcxz 0xFE#8)] := by decide

/-- 2.6. -/
theorem test_decode_errors :
    decode [0xF4#8] 0 = .error (.noPattern 0xF4#8 0) ∧
    decode [0x83#8, 0xC8#8, 0x01#8] 0 = .error (.secondaryField 0x83#8 0 0xC8#8) ∧
    decode [0x83#8, 0xF7#8] 0 = .error (.secondaryField 0x83#8 0 0xF7#8) ∧
    decode [0xB8#8, 0x05#8] 0 = .error (.outOfBounds 1) ∧
    decode [0x89#8] 0 = .error (.outOfBounds 1) ∧
    decode [0x8B#8, 0x86#8, 0x00#8] 0 = .error (.outOfBounds 2) ∧
    decode [0xC7#8, 0x07#8, 0x34#8] 0 = .error (.outOfBounds 2) ∧
    decode [0x81#8, 0xC3#8, 0x05#8] 0 = .error (.outOfBounds 2) := by decide

/-- 2.6: the single unrecognised bytes it lists. -/
theorem test_decode_unrecognised_bytes :
    ∀ op ∈ [0x0F#8, 0x26#8, 0xF3#8, 0x90#8, 0xEB#8, 0xCD#8, 0xCC#8, 0x8C#8, 0x8E#8, 0xFE#8, 0xFF#8, 0x06#8, 0x50#8, 0xC3#8,
      0xE8#8, 0xE9#8], decode [op] 0 = .error (.noPattern op 0) := by decide

/-- Section 5, second and third rows. -/
theorem test_sweep :
    decodeAll [0xB8#8, 0x01#8, 0x00#8, 0xF4#8, 0xB8#8, 0x02#8, 0x00#8] =
      ([(.movRegImm .word .ax (.imm16 1#16), 3)], some (.noPattern 0xF4#8 3)) ∧
    decodeAll [0xB8#8, 0x01#8, 0x00#8, 0xB8#8, 0x05#8] =
      ([(.movRegImm .word .ax (.imm16 1#16), 3)], some (.outOfBounds 4)) := by decide

/-- Texts of section 2: signs, sizes, names and the omitted zero displacement. -/
theorem test_render :
    listing [0x8B#8, 0x96#8, 0x00#8, 0xFF#8, 0x8B#8, 0x56#8, 0x00#8, 0x88#8, 0xE0#8] =
      ["mov dx, [bp - 256]", "mov dx, [bp]", "mov al, ah"] ∧
    listing [0xC7#8, 0x07#8, 0x34#8, 0x12#8, 0x83#8, 0xC0#8, 0xFF#8, 0x80#8, 0x3F#8, 0x07#8] =
      ["mov [bx], word 4660", "add ax, -1", "cmp [bx], byte 7"] ∧
    listing [0xA2#8, 0xFB#8, 0x09#8, 0x2C#8, 0xF0#8, 0xBF#8, 0x00#8, 0xF0#8, 0xB5#8, 0xF4#8, 0xE0#8, 0xFA#8] =
      ["mov [2555], al", "sub al, 240", "mov di, -4096", "mov ch, 244", "loopnz -6"] := by decide

/-! ### One step (section 4) -/

/-- Row 1, with its diff. -/
theorem test_mov_immediate :
    gives (step (start zero [0xB8#8, 0x05#8, 0x00#8])) (fun t =>
      decide (diff (start zero [0xB8#8, 0x05#8, 0x00#8]) t = ⟨[(.ax, 0#16, 5#16)], some (0#16, 3#16), none⟩)) = true := by
  decide

/-- Row 2. -/
theorem test_mov_register :
    gives (step (start { zero with bx := 0x1234#16 } [0x89#8, 0xD9#8]))
      (fun t => t.regs.cx == 0x1234#16 && t.ip == 2#16) = true := by decide

/-- Row 5: source and destination are one register; the result wraps to zero. -/
theorem test_add_register_wraps :
    gives (step (start { zero with ax := 0x8000#16 } [0x01#8, 0xC0#8]))
      (fun t => t.regs.ax == 0#16 && t.zf && !t.sf && t.ip == 2#16) = true := by decide

/-- Row 6. -/
theorem test_sub_register_borrows :
    gives (step (start { zero with ax := 3#16, bx := 5#16 } [0x29#8, 0xD8#8]))
      (fun t => t.regs.ax == 0xFFFE#16 && t.regs.bx == 5#16 && !t.zf && t.sf) = true := by decide

/-- Row 7. -/
theorem test_cmp_register :
    gives (step (start { zero with ax := 3#16, bx := 5#16 } [0x39#8, 0xD8#8]))
      (fun t => t.regs.ax == 3#16 && t.regs.bx == 5#16 && !t.zf && t.sf) = true := by decide

/-- Row 10. -/
theorem test_add_immediate_sign_extends :
    gives (step (start { zero with ax := 1#16 } [0x83#8, 0xC0#8, 0xFF#8]))
      (fun t => t.regs.ax == 0#16 && t.zf && t.ip == 3#16) = true := by decide

/-- Row 11. -/
theorem test_sub_immediate_sign_extends :
    gives (step (start zero [0x83#8, 0xE8#8, 0xFF#8]))
      (fun t => t.regs.ax == 1#16 && !t.zf && !t.sf && t.ip == 3#16) = true := by decide

/-- Row 12. -/
theorem test_cmp_immediate :
    gives (step (start { zero with bx := 3#16 } [0x83#8, 0xFB#8, 0x03#8]))
      (fun t => t.regs.bx == 3#16 && t.zf && !t.sf && t.ip == 3#16) = true := by decide

/-- Row 13. -/
theorem test_add_accumulator :
    gives (step (start { zero with ax := 24#16 } [0x05#8, 0xE8#8, 0x03#8]))
      (fun t => t.regs.ax == 0x0400#16 && !t.zf && !t.sf && t.ip == 3#16) = true := by decide

/-- Row 14. -/
theorem test_sub_accumulator :
    gives (step (start zero [0x2D#8, 0x01#8, 0x00#8]))
      (fun t => t.regs.ax == 0xFFFF#16 && !t.zf && t.sf && t.ip == 3#16) = true := by decide

/-- Row 15, with its flag diff. -/
theorem test_cmp_accumulator :
    gives (step { start { zero with ax := 16#16 } [0x3D#8, 0x10#8, 0x00#8] with sf := true })
      (fun t => t.regs.ax == 16#16 &&
        (diff { start { zero with ax := 16#16 } [0x3D#8, 0x10#8, 0x00#8] with sf := true } t).flags ==
          some (0b10#2, 0b01#2)) = true := by decide

/-- Row 16. -/
theorem test_store_immediate :
    gives (step (start { zero with bx := 1000#16 } [0xC7#8, 0x07#8, 0x34#8, 0x12#8]))
      (fun t => t.mem == [(1000, 0x34#8), (1001, 0x12#8)] && t.ip == 4#16) = true := by decide

/-- Row 18: the address is taken from the old `bx`. -/
theorem test_load_over_its_base :
    gives (step { start { zero with bx := 1000#16 } [0x8B#8, 0x1F#8] with mem := [(1000, 0xE8#8), (1001, 0x03#8)] })
      (fun t => t.regs.bx == 0x03E8#16 && t.ip == 2#16) = true := by decide

/-- Row 20. -/
theorem test_store_indexed :
    gives (step (start { zero with bp := 0x0100#16, di := 0x0010#16, ax := 0xBEEF#16 } [0x89#8, 0x43#8, 0x04#8]))
      (fun t => t.mem == [(276, 0xEF#8), (277, 0xBE#8)] && t.ip == 3#16) = true := by decide

/-- Row 28: the sum of two bases passes 65,535, the address does not. -/
theorem test_store_exact_sum :
    gives (step (start { zero with bx := 0x8000#16, si := 0x8000#16 } [0xC7#8, 0x40#8, 0xFC#8, 0x34#8, 0x12#8]))
      (fun t => t.mem == [(65532, 0x34#8), (65533, 0x12#8)] && t.ip == 5#16) = true := by decide

/-- Row 24. -/
theorem test_store_accumulator_at_the_top :
    gives (step (start { zero with ax := 0x1234#16 } [0xA3#8, 0xFE#8, 0xFF#8]))
      (fun t => t.mem == [(65534, 0x34#8), (65535, 0x12#8)]) = true := by decide

/-- Row 22. -/
theorem test_load_accumulator :
    gives (step { start zero [0xA1#8, 0xEC#8, 0x03#8] with mem := [(1004, 0x34#8), (1005, 0x12#8)] })
      (fun t => t.regs.ax == 0x1234#16 && t.ip == 3#16) = true := by decide

/-- Rows 25, 26 and 27. -/
theorem test_address_faults :
    stepReport (start { zero with ax := 0x1234#16 } [0xA3#8, 0xFF#8, 0xFF#8]) = .fault (.addressOutOfRange 65535 2) ∧
    stepReport (start zero [0x8B#8, 0x47#8, 0xFF#8]) = .fault (.addressOutOfRange (-1) 2) ∧
    stepReport (start { zero with bx := 0xF000#16, si := 0xF000#16 } [0x8B#8, 0x00#8]) = .fault (.addressOutOfRange 122880 2) := by
  decide

/-- Rows 29 (PA Scenario C) and 30. -/
theorem test_jnz :
    gives (step (start zero [0x75#8, 0xFE#8])) (fun t => t.ip == 0#16) = true ∧
    gives (step { start zero [0x75#8, 0xFE#8] with zf := true }) (fun t => t.ip == 2#16 && t.zf) = true := by decide

/-- Row 32: the target wraps, and the next step has no byte to fetch. -/
theorem test_jnz_out_of_the_buffer :
    gives (step (start zero [0x75#8, 0x80#8]))
      (fun t => t.ip == 65410#16 && stepReport t == .fault (.fetchOutOfBounds 65410#16)) = true := by decide

/-- Rows 34 and 35: neither the condition nor `cx` matters. -/
theorem test_handlerless :
    gives (step { start zero [0x74#8, 0x04#8] with zf := true })
      (fun t => t.ip == 2#16 && t.status == .noHandler) = true ∧
    gives (step (start { zero with cx := 5#16 } [0xE2#8, 0xFE#8]))
      (fun t => t.ip == 2#16 && t.regs.cx == 5#16 && t.status == .noHandler) = true := by decide

/-- Rows 38 to 42 and 45. -/
theorem test_refusals :
    stepReport (start zero [0xB0#8, 0x07#8]) = .refused .byteWidthExecution ∧
    stepReport (start zero [0x88#8, 0xE0#8]) = .refused .byteWidthExecution ∧
    stepReport (start { zero with bx := 1000#16 } [0x03#8, 0x07#8]) = .refused .aluMemoryOperand ∧
    stepReport (start { zero with bx := 1000#16 } [0x83#8, 0x07#8, 0x05#8]) = .refused .aluMemoryOperand ∧
    stepReport (start { zero with bx := 1000#16 } [0x80#8, 0x3F#8, 0x07#8]) = .refused .byteWidthExecution ∧
    stepReport { start zero [0x74#8, 0x04#8] with zf := true, policy := .refuse } = .refused (.noHandler .je) := by decide

/-- Rows 43 and 44, and the halt kept apart from the faults in the report. -/
theorem test_end_of_buffer :
    stepReport { State.load [0xB8#8, 0x05#8, 0x00#8] with ip := 3#16 } = .halt ∧
    stepReport { State.load [0#8, 0#8, 0#8, 0#8, 0#8, 0#8, 0#8, 0#8] with ip := 24#16 } = .fault (.fetchOutOfBounds 24#16) := by
  decide

/-- A word placed at the instruction pointer is what the next step runs, from reset and from a later `ip`. -/
theorem test_withFetchWord :
    gives (step (State.reset.withFetchWord 24 0x0005B8)) (fun t => t.regs.ax == 5#16 && t.ip == 3#16) = true ∧
    gives (step ({ State.reset with ip := 9#16 }.withFetchWord 16 0xD901)) (fun t => t.zf && t.ip == 11#16) = true := by
  decide

/-- Writing zero removes the cell; the canonical form is kept. -/
theorem test_memory_canonical :
    Memory.write [(3, 1#8), (7, 2#8)] 5 9#8 = [(3, 1#8), (5, 9#8), (7, 2#8)] ∧
    Memory.write [(3, 1#8), (7, 2#8)] 7 0#8 = [(3, 1#8)] ∧ Memory.wf [(3, 1#8), (5, 9#8), (7, 2#8)] = true ∧
    Memory.wf [(5, 9#8), (3, 1#8)] = false ∧ Memory.wf [(5, 0#8)] = false ∧ Memory.wf [(1048576, 1#8)] = false := by decide

/-! ### Witnesses: for each statement with hypotheses, inputs that meet them, at the edges of their ranges -/

/-- A store of `ax` to 65534, the last word there is. -/
def storeTop : State := start { zero with ax := 0x1234#16 } [0xA3#8, 0xFE#8, 0xFF#8]

theorem witness_ResetIsAllZero : 0 < Config.memSize ∧ 1048575 < Config.memSize := by decide

theorem witness_InvariantHoldsAtReset : ([] : List Byte).length ≤ 65535 ∧ (List.replicate 65535 0#8).length ≤ 65535 :=
  ⟨by decide, List.length_replicate.le⟩

theorem witness_EveryStepKeepsTheInvariant : ∃ t, Inv storeTop ∧ step storeTop = .next t :=
  ⟨_, ⟨rfl, by decide, fun _ _ => rfl, by decide⟩, rfl⟩

theorem witness_StepRunsTheDecodedInstruction :
    decode storeTop.buf storeTop.ip.toNat = .ok (.movMemAcc .word 65534#16, 3) := by decide

theorem witness_StepRunsTheEncodedInstruction :
    (Instr.cmpRm .toReg .byte .ax (.mem0 .bx)).wf = true ∧
    ({ State.load [0xF4#8, 0x3A#8, 0x07#8, 0xF4#8] with ip := 1#16 }).buf =
      [0xF4#8] ++ encode (.cmpRm .toReg .byte .ax (.mem0 .bx)) ++ [0xF4#8] ∧
    ({ State.load [0xF4#8, 0x3A#8, 0x07#8, 0xF4#8] with ip := 1#16 }).ip.toNat = [0xF4#8].length := by decide

theorem witness_StepStopsWithoutAnInstruction_pointer :
    (State.load []).ip.toNat = (State.load []).buf.length ∧
    ({ State.load [0xB0#8] with ip := 1#16 }).ip.toNat = [0xB0#8].length ∧
    ({ State.load [0xB0#8] with ip := 2#16 }).ip.toNat > [0xB0#8].length ∧
    ({ State.load [0xB0#8] with ip := 0xFFFF#16 }).ip.toNat > [0xB0#8].length ∧
    (State.load [0xB0#8]).ip.toNat < [0xB0#8].length := by decide

theorem witness_StepStopsWithoutAnInstruction_decode :
    decode (State.load [0xF4#8]).buf 0 = .error (.noPattern 0xF4#8 0) ∧
    decode (State.load [0x80#8, 0x08#8]).buf 0 = .error (.secondaryField 0x80#8 0 0x08#8) ∧
    decode (State.load [0xB0#8]).buf 0 = .error (.outOfBounds 1) := by decide

/-- A `jnz` after any number of bytes. -/
theorem test_decode_at_any_offset (n : Nat) : decode (List.replicate n 0xF4#8 ++ [0x75#8, 0xFE#8]) n = .ok (.jnz 0xFE#8, 2) := by
  have entry : lookup 0x75#8 = some (.jump .jnz) := by decide
  simp [decode, fetch8, entry, decodeFamily, Jump.instr, bind, Except.bind]

/-- The longest buffer, and an instruction that ends with it. -/
theorem witness_SequentialAdvanceNeverWraps :
    (List.replicate 65533 0xF4#8 ++ [0x75#8, 0xFE#8]).length ≤ 65535 ∧
    decode (List.replicate 65533 0xF4#8 ++ [0x75#8, 0xFE#8]) (65533#16).toNat = .ok (.jnz 0xFE#8, 2) :=
  ⟨by rw [List.length_append, List.length_replicate]; decide, test_decode_at_any_offset 65533⟩

theorem witness_FetchPrimitives :
    0 + 1 > ([] : List Byte).length ∧ [0xB0#8, 0x07#8][1]? = some 0x07#8 ∧ 1 + 2 > [0xB0#8, 0x07#8].length ∧
    [0xB0#8, 0x07#8][0]? = some 0xB0#8 ∧ [0xB0#8, 0x07#8][0 + 1]? = some 0x07#8 := by decide

theorem witness_Reaches : ∃ t, Reaches storeTop t ∧ step t = .fault .endOfBuffer := ⟨_, .step .refl rfl, rfl⟩

theorem witness_FlagsAreSetByTheAluAlone :
    isAlu (.addRm .toReg .word .ax (.reg .bx)) = true ∧ isAlu (.cmpAcc .word (.imm16 0#16)) = true ∧
    isAlu (.movRegImm .word .ax (.imm16 0#16)) = false ∧ isAlu (.js 0#8) = false ∧
    gives (exec (.addRm .toReg .word .ax (.reg .bx)) storeTop) (fun _ => true) = true ∧
    gives (exec (.cmpAcc .word (.imm16 0#16)) storeTop) (fun _ => true) = true ∧
    gives (exec (.movRegImm .word .ax (.imm16 0#16)) storeTop) (fun _ => true) = true ∧
    gives (exec (.js 0#8) storeTop) (fun _ => true) = true := by decide

/-- The ranges of `WordAccessIsLittleEndian` and `ByteAccess` at both ends, and a canonical memory. -/
theorem witness_access_ranges :
    ((0 : Int) ≤ 0 ∧ (0 : Int) ≤ 65534) ∧ ((0 : Int) ≤ 65534 ∧ (65534 : Int) ≤ 65534) ∧ ((0 : Int) ≤ 65535 ∧ (65535 : Int) ≤ 65535) ∧
    (-1 : Int) < 0 ∧ (65534 : Int) < 65535 ∧ (65535 : Int) < 65536 ∧ storeTop.mem.wf = true := by decide

theorem witness_AddressingModes :
    (6#3 : BitVec 3) = 6#3 ∧ (7#3 : BitVec 3) ≠ 6#3 ∧ (5#3 : BitVec 3) ≠ 6#3 ∧
    fetch16 [0xE8#8, 0x03#8] 0 = .ok 1000#16 ∧ fetch16 [0xE8#8] 0 = .error (.outOfBounds 0) ∧
    fetch8 [0x80#8] 0 = .ok 0x80#8 ∧ fetch8 [] 0 = .error (.outOfBounds 0) := by decide

/-- The addresses of `MovRegMemCompletes`, `MovImmRegMemCompletes` and `MovAccumulatorCompletes` at both ends. -/
theorem witness_mov_addresses :
    (RmOperand.mem0 .bx).place = .memory ⟨.ea .bx, 0#16⟩ ∧ effectiveAddress ⟨.ea .bx, 0#16⟩ storeTop = 0 ∧
    (RmOperand.direct 65534#16).place = .memory ⟨.direct, 65534#16⟩ ∧
    effectiveAddress ⟨.direct, 65534#16⟩ storeTop = 65534 ∧ (0#16).toNat ≤ 65534 ∧ (65534#16).toNat ≤ 65534 := by decide

theorem witness_JnzBranchesOnZeroClear :
    [0x75#8, 0xFE#8][0]? = some 0x75#8 ∧ [0x75#8, 0xFE#8][0 + 1]? = some 0xFE#8 ∧ [0x75#8].length = 0 + 1 ∧
    gives (exec (.jnz 1#8) (State.load [0x75#8, 0x01#8])) (fun t => decide (t.ip.toNat > t.buf.length)) = true ∧
    gives (exec (.jnz 0#8) (State.load [0x75#8, 0x00#8])) (fun t => decide (t.ip.toNat = t.buf.length)) = true := by decide

theorem witness_HandlerlessJumpsOnlyAdvance :
    Instr.jo ∈ ([.jo, .loopnz] : List (Byte → Instr)) ∧ storeTop.policy = .advanceOnly := ⟨.head _, rfl⟩

theorem witness_ExecutorRefusesExactly :
    (isMov (.movRegImm .byte .ax (.imm8 7#8)) = true ∧ (Instr.movRegImm .byte .ax (.imm8 7#8)).record.width = .byte) ∧
    (isAlu (.cmpIm true .byte (.mem0 .bx) (.imm8 7#8)) = true ∧
      (Instr.cmpIm true .byte (.mem0 .bx) (.imm8 7#8)).record.width = .byte) ∧
    (isAlu (.cmpIm true .word (.mem0 .bx) (.imm8 7#8)) = true ∧ hasMemory (.cmpIm true .word (.mem0 .bx) (.imm8 7#8)) = true) ∧
    isHandlerless (.jcxz 0#8) = true ∧ isHandlerless (.jnz 0#8) = false := by decide

/-- For `ExecutorFaultsOnlyOnAddresses` and `MovFaultsExactlyOutOfRange`: just below and just above the range. -/
theorem witness_address_faults :
    exec (.movRm .toReg .word .ax (.mem8 .bx 0xFF#8)) storeTop = .fault (.addressOutOfRange (-1) 2) ∧
    effectiveAddress ⟨.ea .bx, 0xFFFF#16⟩ storeTop = -1 ∧
    exec (.movMemAcc .word 65535#16) storeTop = .fault (.addressOutOfRange 65535 2) ∧
    effectiveAddress ⟨.direct, 65535#16⟩ storeTop = 65535 := ⟨rfl, rfl, rfl, rfl⟩

theorem witness_AtMostOneRegisterChanges :
    (Instr.movRegImm .word .sp (.imm16 9#16)).record.operands.head? = some (.register .sp) ∧
    gives (exec (.movRegImm .word .sp (.imm16 9#16)) storeTop) (fun _ => true) = true ∧
    (∀ r : Reg, (Instr.movMemAcc .word 65534#16).record.operands.head? ≠ some (.register r)) ∧
    gives (exec (.movMemAcc .word 65534#16) storeTop) (fun _ => true) = true ∧
    (Instr.cmpRm .toReg .word .ax (.reg .bx)).record.mnemonic = .cmp ∧
    gives (exec (.cmpRm .toReg .word .ax (.reg .bx)) storeTop) (fun _ => true) = true := by
  refine ⟨by decide, by decide, ?_, by decide, by decide, by decide⟩
  intro r; cases r <;> decide

theorem witness_OnlyTheStoredBytesChange :
    writesMemoryAt (.movMemAcc .word 65534#16) ⟨.direct, 65534#16⟩ ∧
    gives (exec (.movMemAcc .word 65534#16) storeTop) (fun t => t.mem == [(65534, 0x34#8), (65535, 0x12#8)]) = true ∧
    (∀ m : MemOperand, ¬ writesMemoryAt (.movAccMem .word 65534#16) m) ∧
    gives (exec (.movAccMem .word 65534#16) storeTop) (fun _ => true) = true :=
  ⟨rfl, by decide, fun _ h => (by cases h), by decide⟩

/-- For `CmpIsSubWithoutTheWrite`, whose clauses speak of `sub` completing or stopping: it does each. -/
theorem witness_CmpIsSubWithoutTheWrite :
    gives (exec (.subRm .toReg .word .ax (.reg .bx)) storeTop) (fun _ => true) = true ∧
    gives (exec (.subIm true .word (.reg .ax) (.imm8 1#8)) storeTop) (fun _ => true) = true ∧
    gives (exec (.subAcc .word (.imm16 1#16)) storeTop) (fun _ => true) = true ∧
    exec (.subRm .toReg .word .ax (.mem0 .bx)) storeTop = .refused .aluMemoryOperand :=
  ⟨by decide, by decide, by decide, rfl⟩

/-- For `PointerAdvancesByLength` and `StatusMarksTheHandlerless`: a taken `jnz`, one not taken, a handler-less jump, a `mov`. -/
theorem witness_next_states :
    gives (exec (.jnz 4#8) storeTop) (fun t => t.ip == 6#16 && t.status == .ok) = true ∧
    gives (exec (.jnz 4#8) { storeTop with zf := true }) (fun t => t.ip == 2#16) = true ∧
    gives (exec (.jp 4#8) storeTop) (fun t => t.ip == 2#16 && t.status == .noHandler) = true ∧
    gives (exec (.movMemAcc .word 65534#16) { storeTop with ip := 0xFFFE#16 }) (fun t => t.ip == 1#16) = true := by decide

theorem witness_MemoryIsInvisibleWithoutAMemoryOperand :
    hasMemory (.addRm .toReg .word .ax (.reg .bx)) = false ∧
    gives (exec (.addRm .toReg .word .ax (.reg .bx)) (setMem storeTop [(7, 1#8)])) (fun t => t.mem == [(7, 1#8)]) = true ∧
    hasMemory (.addRm .toReg .byte .ax (.reg .bx)) = false ∧
    exec (.addRm .toReg .byte .ax (.reg .bx)) storeTop = .refused .byteWidthExecution := ⟨by decide, by decide, by decide, rfl⟩

/-- Well-formed instructions with every field at its largest, for `DecodeOfEncode` and `TruncatedInstructionIsOutOfBounds`
(with `k` from 0 to the last). -/
theorem witness_wellFormed :
    (Instr.movIm .word 7#3 (.mem16 .bx 0xFFFF#16) (.imm16 0xFFFF#16)).wf = true ∧
    0 < (Instr.movIm .word 7#3 (.mem16 .bx 0xFFFF#16) (.imm16 0xFFFF#16)).len ∧
    5 < (Instr.movIm .word 7#3 (.mem16 .bx 0xFFFF#16) (.imm16 0xFFFF#16)).len ∧
    (Instr.movRm .toRm .byte .di (.mem0 .bx)).wf = true := by decide

/-- The offsets of section 2.6's truncated rows, by the fields of the whole instruction: `8B 86`, `8B 86 00`, `C7 07`, `C7 07 34`,
`B8`, `B8 05`, `75`. -/
theorem test_fieldStart :
    fieldStart (fieldLengths (.movRm .toReg .word .ax (.mem16 .bp 0x0100#16))) 2 = 2 ∧
    fieldStart (fieldLengths (.movRm .toReg .word .ax (.mem16 .bp 0x0100#16))) 3 = 2 ∧
    fieldStart (fieldLengths (.movIm .word 0#3 (.mem0 .bx) (.imm16 0x1234#16))) 2 = 2 ∧
    fieldStart (fieldLengths (.movIm .word 0#3 (.mem0 .bx) (.imm16 0x1234#16))) 3 = 2 ∧
    fieldStart (fieldLengths (.movRegImm .word .ax (.imm16 5#16))) 1 = 1 ∧
    fieldStart (fieldLengths (.movRegImm .word .ax (.imm16 5#16))) 2 = 1 ∧ fieldStart (fieldLengths (.jnz 0xFE#8)) 1 = 1 := by
  decide

/-- For `EncodeOfDecode`, `LengthIsExact` and `DecoderReadsOnlyTheInstruction`: the shortest and the longest instruction, and
another buffer that agrees with the first as far as the instruction goes. -/
theorem witness_decodes :
    decode [0xB0#8, 0x07#8] 0 = .ok (.movRegImm .byte .ax (.imm8 7#8), 2) ∧
    decode [0xF4#8, 0xC7#8, 0xBF#8, 0xFF#8, 0xFF#8, 0xFF#8, 0xFF#8] 1 =
      .ok (.movIm .word 7#3 (.mem16 .bx 0xFFFF#16) (.imm16 0xFFFF#16), 6) ∧
    ∀ k : Nat, k < 2 → [0xB0#8, 0x07#8, 0xF4#8][0 + k]? = [0xB0#8, 0x07#8][0 + k]? := by decide

theorem witness_UnknownFirstByteFails :
    recognised 0x06#8 = false ∧ [0x06#8][0]? = some 0x06#8 ∧ recognised 0xE4#8 = false ∧ recognised 0x05#8 = true ∧
    recognised 0xE3#8 = true ∧ [0xE3#8][0]? = some 0xE3#8 := by decide

theorem witness_UnrecognisedSecondaryFieldFails :
    decode [0x83#8, 0xF7#8] 0 = .error (.secondaryField 0x83#8 0 0xF7#8) ∧
    decode [0x80#8, 0x08#8] 0 = .error (.secondaryField 0x80#8 0 0x08#8) := by decide

theorem witness_DecodeAllReassembles :
    (decodeAll [0xB0#8, 0x07#8, 0x75#8, 0xFE#8]).2 = none ∧
    ∀ i ∈ [Instr.movRegImm .byte .ax (.imm8 7#8), .jnz 0xFE#8], i.wf = true := by decide

theorem witness_DiffListsExactlyTheChanges :
    ∃ t, step (start { zero with ax := 1#16 } [0x83#8, 0xC0#8, 0xFF#8]) = .next t ∧
      (diff (start { zero with ax := 1#16 } [0x83#8, 0xC0#8, 0xFF#8]) t).regs = [(.ax, 1#16, 0#16)] ∧
      (diff (start { zero with ax := 1#16 } [0x83#8, 0xC0#8, 0xFF#8]) t).flags = some (0b00#2, 0b01#2) := ⟨_, rfl, by decide⟩

theorem witness_SessionEndsPrecisely :
    (∃ t, runSession 2 storeTop = .halted t) ∧ (∃ t, runSession 1 storeTop = .running t) ∧
    (∃ t f, runSession 2 (State.load [0x75#8, 0x10#8]) = .faulted t f) ∧
    ∃ t r, runSession 2 (State.load [0x75#8, 0x00#8, 0xB0#8, 0x07#8]) = .refused t r :=
  ⟨⟨_, rfl⟩, ⟨_, rfl⟩, ⟨_, _, rfl⟩, ⟨_, _, rfl⟩⟩

end Sys2Proof.Tests
end

section
/-! PROOFS. The widening primitives of 00_scope.md R7, as functions on unsigned readings. -/

namespace Sys2Proof

@[simp] theorem zext16_toNat (b : Byte) : (zext16 b).toNat = b.toNat :=
  BitVec.toNat_setWidth_of_le (by decide)

theorem sext16_of_lt {b : Byte} (h : b.toNat < 128) : sext16 b = zext16 b := if_pos h

theorem sext16_of_not_lt {b : Byte} (h : ¬ b.toNat < 128) : sext16 b = zext16 b + 0xFF00#16 := if_neg h

/-- A byte plus `0xFF00` stays below 2^16, so the addition in `sext16` does not wrap. -/
theorem sext16_toNat (b : Byte) :
    (sext16 b).toNat = if b.toNat < 128 then b.toNat else b.toNat + 0xFF00 := by
  split
  next h => rw [sext16_of_lt h, zext16_toNat]
  next h =>
    have noWrap : (zext16 b).toNat + (0xFF00#16).toNat < 2 ^ 16 := by
      have := b.isLt
      simp
      omega
    rw [sext16_of_not_lt h, BitVec.toNat_add_of_lt noWrap, zext16_toNat]
    rfl

/-- `signed16` of R7, in the rule's own bounds. -/
theorem word_toInt (v : Word) :
    v.toInt = if v.toNat < 32768 then (v.toNat : Int) else (v.toNat : Int) - 65536 := by
  have signBit : 2 * v.toNat < 2 ^ 16 ↔ v.toNat < 32768 := by omega
  rw [BitVec.toInt_eq_toNat_cond]
  exact if_congr signBit rfl rfl

/-- `u16` of R7: the remainder is never negative, so its natural-number reading is itself. -/
theorem wordOfInt_toNat (i : Int) : ((BitVec.ofInt 16 i).toNat : Int) = i % 65536 := by
  rw [BitVec.toNat_ofInt]
  exact Int.toNat_of_nonneg (Int.emod_nonneg i (by decide))

/-- Settles O9: one lemma per primitive of R7. -/
theorem wideningPrimitives : Obligations.WideningPrimitives :=
  ⟨zext16_toNat, sext16_toNat, word_toInt, wordOfInt_toNat⟩

end Sys2Proof
end

section
/-! PROOFS. The reset state of 10_state.md R24. -/

namespace Sys2Proof.Machine

@[simp] theorem readReg_reset (r : Reg) : readReg State.reset r = 0#16 := by cases r <;> rfl

/-- Reset lists no cell, and an unlisted address holds 0x00. -/
@[simp] theorem read_reset (a : Nat) : State.reset.mem.read a = 0#8 := rfl

/-- Settles O1: registers and memory by their reset lemmas; `ip`, the flags and the offset are fields given as zero. -/
theorem resetIsAllZero : Obligations.ResetIsAllZero :=
  ⟨readReg_reset, rfl, rfl, rfl, fun a _ => read_reset a, fun _ => rfl⟩

end Sys2Proof.Machine
end

section
/-! PROOFS. The inputs of the block stay what they are: an instruction, a step and a run leave buffer and policy alone
(10_state.md R22, 00_scope.md R5); and the two fetches of R22. -/

namespace Sys2Proof.Machine

variable {s t u : State}

theorem SameInputs.refl (s : State) : SameInputs s s := ⟨rfl, rfl⟩

theorem SameInputs.trans (hst : SameInputs s t) (htu : SameInputs t u) : SameInputs s u :=
  ⟨htu.1.trans hst.1, htu.2.trans hst.2⟩

/-- A write to a place, register or memory, reaches neither input. -/
theorem writePlace_sameInputs {p : Place} {v : Word} {s1 : State} (h : writePlace p v s s1 = .ok t) :
    SameInputs s1 t := by
  obtain ⟨r, -, rfl⟩ | ⟨m, -, -, -, rfl⟩ := writePlace_ok h
  · exact ⟨writeReg_buf .., writeReg_policy ..⟩
  · exact ⟨setMem_buf .., setMem_policy ..⟩

theorem Completes.sameInputs {i : Instr} (h : Completes i s t) : SameInputs s t := by
  cases h with
  | mov dst src v u _ _ _ _ hu ht =>
    have written : SameInputs (advance i.len s) u := writePlace_sameInputs hu
    simpa [ht, SameInputs] using written
  | alu op r src b _ _ _ _ _ ht => simp [ht, SameInputs]
  | jnz d _ ht =>
    cases hz : s.zf <;> simp [ht, hz, SameInputs]
  | handlerless d _ _ _ _ ht => simp [ht, SameInputs]

theorem step_sameInputs (h : step s = .next t) : SameInputs s t := by
  obtain ⟨-, i, n, -, hexec⟩ := step_next h
  exact (exec_next hexec).sameInputs

theorem Reaches.sameInputs (h : Reaches s t) : SameInputs s t := by
  induction h with
  | refl => exact .refl s
  | step _ hs ih => exact ih.trans (step_sameInputs hs)

/-- Settles O10: the two fetches by what each answers, the constant buffer by induction on the run. -/
theorem fetchPrimitives : Obligations.FetchPrimitives := by
  unfold Obligations.FetchPrimitives
  refine ⟨?fetch8_past, fun _ _ _ => fetch8_ok.mpr, ?fetch16_past, ?fetch16_inside, fun _ _ h => h.sameInputs.1⟩
  case fetch8_past => exact fun buf p h => fetch8_error.mpr ⟨by omega, rfl⟩
  case fetch16_past => exact fun buf p h => fetch16_error.mpr ⟨by omega, rfl⟩
  case fetch16_inside =>
    exact fun buf p low high hlow hhigh =>
      ⟨wordOf low high, fetch16_ok.mpr ⟨low, high, hlow, hhigh, rfl⟩, wordOf_toNat low high⟩

end Sys2Proof.Machine
end

section
/-! PROOFS. The decoder taken apart: what sequencing its fetches gives, the operand extractor mode by mode
(30_encoding.md R61), and the length every decode reports (R74). -/

namespace Sys2Proof

open Laws.EncodedLength (dispLength_le immLength_bounds)

/-! ### Sequenced fetches -/

section Sequencing

variable {α β : Type} {x : Except DecodeError α} {f : α → Except DecodeError β}

theorem bind_of_ok {a : α} (h : x = .ok a) : (x >>= f) = f a := by rw [h]; rfl

theorem bind_of_error {e : DecodeError} (h : x = .error e) : (x >>= f) = .error e := by rw [h]; rfl

theorem bind_ok {b : β} : (x >>= f) = .ok b ↔ ∃ a, x = .ok a ∧ f a = .ok b := by
  cases x with
  | error e => simp [bind, Except.bind]
  | ok a => simp [bind, Except.bind]

end Sequencing

/-! ### The operand extractor -/

section OperandExtractor

variable (rm : BitVec 3) (buf : List Byte) (q : Nat)

theorem decodeRm_mod3 : decodeRm 3#2 rm buf q = .ok (.reg (.ofBits rm), 0) := rfl

theorem decodeRm_mod0_direct :
    decodeRm 0#2 6#3 buf q = fetch16 buf q >>= fun a => .ok (.direct a, 2) := rfl

theorem decodeRm_mod0_base {rm : BitVec 3} (h : rm ≠ 6#3) : decodeRm 0#2 rm buf q = .ok (.mem0 (.ofBits rm), 0) :=
  if_neg h

theorem decodeRm_mod1 : decodeRm 1#2 rm buf q = fetch8 buf q >>= fun d => .ok (.mem8 (.ofBits rm) d, 1) := rfl

theorem decodeRm_mod2 : decodeRm 2#2 rm buf q = fetch16 buf q >>= fun d => .ok (.mem16 (.ofBits rm) d, 2) := rfl

end OperandExtractor

/-- Settles O18: each mode by its equation, its success and its failure by those of the one fetch in it. -/
theorem addressingModes : Obligations.AddressingModes := by
  unfold Obligations.AddressingModes
  refine ⟨fun m => decide_eq_true_iff, fun rm buf q => ⟨?mod3, ?mod0_direct, ?mod0_base, ?mod1, ?mod2⟩⟩
  case mod3 => exact ⟨_, decodeRm_mod3 rm buf q, rfl⟩
  case mod0_direct =>
    rintro rfl
    rw [decodeRm_mod0_direct]
    exact ⟨fun a h => ⟨.direct a, bind_of_ok h, rfl⟩, fun e h => bind_of_error h⟩
  case mod0_base => exact fun h => ⟨_, decodeRm_mod0_base buf q h, rfl⟩
  case mod1 =>
    rw [decodeRm_mod1]
    exact ⟨fun d h => ⟨.mem8 (.ofBits rm) d, bind_of_ok h, rfl⟩, fun e h => bind_of_error h⟩
  case mod2 =>
    rw [decodeRm_mod2]
    exact ⟨fun d h => ⟨.mem16 (.ofBits rm) d, bind_of_ok h, rfl⟩, fun e h => bind_of_error h⟩

/-! ### The length a decode reports -/

/-- A successful decode matched its first byte and read the layout that the entry selects (R59). -/
theorem decode_ok {buf : List Byte} {p : Nat} {r : Instr × Nat} :
    decode buf p = .ok r ↔
      ∃ op sel, buf[p]? = some op ∧ lookup op = some sel ∧ decodeFamily sel op buf p = .ok r := by
  unfold decode
  rw [bind_ok]
  constructor
  · rintro ⟨op, hop, h⟩
    cases hsel : lookup op with
    | none => simp [hsel] at h
    | some sel => exact ⟨op, sel, fetch8_ok.mp hop, hsel, by simpa [hsel] using h⟩
  · rintro ⟨op, sel, hop, hsel, h⟩
    exact ⟨op, fetch8_ok.mpr hop, by simpa [hsel] using h⟩

/-- The number of bytes the extractor consumes is `dispLen` of the operand it gives (R61, R74). -/
theorem decodeRm_consumed {mod : BitVec 2} {rm : BitVec 3} {buf : List Byte} {q n : Nat} {o : RmOperand}
    (h : decodeRm mod rm buf q = .ok (o, n)) : n = o.dispLength := by
  have modes : ∀ m : BitVec 2, m = 0#2 ∨ m = 1#2 ∨ m = 2#2 ∨ m = 3#2 := by decide
  obtain rfl | rfl | rfl | rfl := modes mod
  · by_cases hrm : rm = 6#3
    · subst hrm
      obtain ⟨a, -, h⟩ := bind_ok.mp (decodeRm_mod0_direct .. ▸ h)
      cases h; rfl
    · rw [decodeRm_mod0_base _ _ hrm] at h
      cases h; rfl
  · obtain ⟨d, -, h⟩ := bind_ok.mp (decodeRm_mod1 .. ▸ h)
    cases h; rfl
  · obtain ⟨d, -, h⟩ := bind_ok.mp (decodeRm_mod2 .. ▸ h)
    cases h; rfl
  · cases h; rfl

/-! The members of one format have one length, whichever of them the decoder names. -/

theorem RmKind.len_instr (k : RmKind) (d : Dir) (w : Width) (reg : Reg) (rm : RmOperand) :
    (k.instr d w reg rm).len = 2 + rm.dispLength := by
  cases k with
  | mov => rfl
  | alu op => cases op <;> rfl

theorem AluOp.len_imInstr (op : AluOp) (s : Bool) (w : Width) (rm : RmOperand) (imm : ImmField) :
    (op.imInstr s w rm imm).len = 2 + rm.dispLength + immLength s w := by cases op <;> rfl

theorem AluOp.len_accInstr (op : AluOp) (w : Width) (imm : ImmField) :
    (op.accInstr w imm).len = 1 + immLength false w := by cases op <;> rfl

theorem Jump.len_instr (j : Jump) (d : Byte) : (j.instr d).len = 2 := by cases j <;> rfl

section ConsumedIsLen

variable {op : Byte} {buf : List Byte} {p n : Nat} {i : Instr}

theorem decodeRmFamily_consumed {k : RmKind} (h : decodeRmFamily k op buf p = .ok (i, n)) : n = i.len := by
  obtain ⟨m, -, h⟩ := bind_ok.mp h
  obtain ⟨⟨rm, disp⟩, hrm, h⟩ := bind_ok.mp h
  cases h
  rw [RmKind.len_instr, decodeRm_consumed hrm]

theorem decodeMovIm_consumed (h : decodeMovIm op buf p = .ok (i, n)) : n = i.len := by
  obtain ⟨m, -, h⟩ := bind_ok.mp h
  obtain ⟨⟨rm, disp⟩, hrm, h⟩ := bind_ok.mp h
  obtain ⟨imm, -, h⟩ := bind_ok.mp h
  cases h
  rw [decodeRm_consumed hrm]
  rfl

theorem decodeAluIm_consumed (h : decodeAluIm op buf p = .ok (i, n)) : n = i.len := by
  obtain ⟨m, -, h⟩ := bind_ok.mp h
  cases halu : secondary (regField m) with
  | none => simp [halu] at h
  | some alu =>
    simp only [halu] at h
    obtain ⟨⟨rm, disp⟩, hrm, h⟩ := bind_ok.mp h
    obtain ⟨imm, -, h⟩ := bind_ok.mp h
    cases h
    rw [AluOp.len_imInstr, decodeRm_consumed hrm]

theorem decodeAluAcc_consumed {alu : AluOp} (h : decodeAluAcc alu op buf p = .ok (i, n)) : n = i.len := by
  obtain ⟨imm, -, h⟩ := bind_ok.mp h
  cases h
  rw [AluOp.len_accInstr]

theorem decodeMovRegImm_consumed (h : decodeMovRegImm op buf p = .ok (i, n)) : n = i.len := by
  obtain ⟨imm, -, h⟩ := bind_ok.mp h
  cases h
  rfl

theorem decodeFamily_consumed {sel : Selector} (h : decodeFamily sel op buf p = .ok (i, n)) : n = i.len := by
  cases sel with
  | rm k => exact decodeRmFamily_consumed h
  | movIm => exact decodeMovIm_consumed h
  | aluIm => exact decodeAluIm_consumed h
  | aluAcc alu => exact decodeAluAcc_consumed h
  | movRegImm => exact decodeMovRegImm_consumed h
  | movAccMem | movMemAcc =>
    obtain ⟨a, -, h⟩ := bind_ok.mp h
    cases h
    rfl
  | jump j =>
    obtain ⟨d, -, h⟩ := bind_ok.mp h
    cases h
    rw [Jump.len_instr]

theorem decode_consumed (h : decode buf p = .ok (i, n)) : n = i.len := by
  obtain ⟨op, sel, -, -, h⟩ := decode_ok.mp h
  exact decodeFamily_consumed h

end ConsumedIsLen

/-- R74's sum is least for an opcode byte with one more byte, greatest for two fixed bytes, a 16-bit displacement and a
16-bit immediate. -/
theorem Instr.len_bounds (i : Instr) : 2 ≤ i.len ∧ i.len ≤ 6 := by
  cases i with
  | movRm d w reg rm | addRm d w reg rm | subRm d w reg rm | cmpRm d w reg rm =>
    have := dispLength_le rm
    simp only [Instr.len]
    omega
  | movIm w ignored rm imm =>
    have := dispLength_le rm
    have := immLength_bounds false w
    simp only [Instr.len]
    omega
  | addIm s w rm imm | subIm s w rm imm | cmpIm s w rm imm =>
    have := dispLength_le rm
    have := immLength_bounds s w
    simp only [Instr.len]
    omega
  | addAcc w imm | subAcc w imm | cmpAcc w imm | movRegImm w _ imm =>
    have := immLength_bounds false w
    simp only [Instr.len]
    omega
  | _ => simp [Instr.len]

/-- Settles O41: what each layout reports is the sum of R74, and the sum is bounded format by format. -/
theorem lengthIsExact : Obligations.LengthIsExact := by
  intro buf p i n h
  obtain rfl := decode_consumed h
  exact ⟨rfl, i.len_bounds⟩

end Sys2Proof
end

section
/-! PROOFS. A decode-only pass over one instruction, and the scenario texts of 30_encoding.md R84. -/

namespace Sys2Proof.Machine

theorem DecodePass.run_at_end {d : DecodePass} (h : d.buf.length ≤ d.p) (fuel : Nat) : d.run fuel = ([], none) := by
  cases fuel with
  | zero => rfl
  | succ fuel => simp [DecodePass.run, DecodePass.turn, Nat.not_lt.mpr h]

theorem DecodePass.run_of_yields {d rest : DecodePass} {i : Instr} {len : Nat} (h : d.turn = .yields i len rest)
    (fuel : Nat) : d.run (fuel + 1) = ((i, len) :: (rest.run fuel).1, (rest.run fuel).2) := by
  simp [DecodePass.run, h]

theorem DecodePass.turn_of_decode {d : DecodePass} {i : Instr} {len : Nat} (hp : d.p < d.buf.length)
    (h : decode d.buf d.p = .ok (i, len)) : d.turn = .yields i len ⟨d.buf, d.p + len⟩ := by
  simp [DecodePass.turn, hp, h]

/-- A buffer that is one instruction and nothing more is swept in one turn (R92). -/
theorem decodeAll_single {buf : List Byte} {i : Instr} (h : decode buf 0 = .ok (i, buf.length)) :
    decodeAll buf = ([(i, buf.length)], none) := by
  cases buf with
  | nil => cases h
  | cons b rest =>
    have turn := DecodePass.turn_of_decode (d := .start (b :: rest)) (Nat.succ_pos _) h
    exact (DecodePass.run_of_yields turn rest.length).trans (by rw [DecodePass.run_at_end (Nat.le_add_left ..)])

theorem listing_single {buf : List Byte} {i : Instr} (h : decode buf 0 = .ok (i, buf.length)) :
    (decodeAll buf).1.map (fun y => render y.1.record) = [render i.record] := by
  rw [decodeAll_single h]
  rfl

/-- Settles O48: each buffer is one instruction, whose record renders to the text. -/
theorem scenarioTexts : Obligations.ScenarioTexts := by
  have movWord : render (Instr.movRegImm .word .ax (.imm16 5#16)).record = "mov ax, 5" := by decide
  have movByte : render (Instr.movRegImm .byte .ax (.imm8 7#8)).record = "mov al, 7" := by decide
  have jnzBack : render (Instr.jnz 0xFE#8).record = "jnz -2" := by decide
  refine ⟨?_, ?_, ?_⟩
  · rw [listing_single (i := .movRegImm .word .ax (.imm16 5#16)) (by decide), movWord]
  · rw [listing_single (i := .movRegImm .byte .ax (.imm8 7#8)) (by decide), movByte]
  · rw [listing_single (i := .jnz 0xFE#8) (by decide), jnzBack]

end Sys2Proof.Machine
end

section
/-! PROOFS. The ALU and the flag update (40_datapath.md R100 to R102): the results on unsigned readings, the flags of a
result, and who sets them. -/

namespace Sys2Proof.Machine

/-! ### Results -/

theorem aluAdd_toNat (a b : Word) : (aluAdd a b).toNat = sum16 a.toNat b.toNat := BitVec.toNat_add a b

theorem aluSub_toNat (a b : Word) : (aluSub a b).toNat = difference16 a.toNat b.toNat := by
  rw [aluSub, BitVec.toNat_sub, difference16, Nat.add_comm]

/-- The natural-number difference adds 2^16 before it subtracts; the remainder is that of the exact difference. -/
theorem difference16_eq_emod {a b : Nat} (hb : b ≤ 65536) : (difference16 a b : Int) = ((a : Int) - b) % 65536 := by
  unfold difference16
  omega

/-- Settles O12: the reading of `aluAdd`, and the rule's two examples. -/
theorem aluAddWraps : Obligations.AluAddWraps :=
  ⟨fun a b => ⟨rfl, aluAdd_toNat a b⟩, by decide, by decide⟩

/-- Settles O13: the reading of `aluSub`, and the rule's examples. -/
theorem aluSubWraps : Obligations.AluSubWraps := by
  refine ⟨fun a b => ⟨rfl, rfl, ?reading⟩, by decide, by decide, BitVec.sub_self⟩
  case reading => rw [aluSub_toNat, difference16_eq_emod b.isLt.le]

/-- The result of an operation by its mnemonic, as R100, R101 and R104 give it. -/
theorem aluResult_toNat (op : AluOp) (a b : Word) :
    (aluResult op a b).toNat =
      if AluOp.mnemonic op = .add then sum16 a.toNat b.toNat else difference16 a.toNat b.toNat := by
  cases op with
  | add => exact aluAdd_toNat a b
  | sub => exact aluSub_toNat a b
  | cmp => exact aluSub_toNat a b

/-! ### Flags -/

/-- A state whose flags were taken from a word holds the flags of that word's value (R16, R102). -/
theorem flagsOf_toNat {r : Word} {t : State} (hz : t.zf = decide (r = 0#16)) (hs : t.sf = r.msb) : FlagsOf r.toNat t := by
  constructor
  · rw [hz, decide_eq_true_iff, ← BitVec.toNat_inj]
    rfl
  · rw [hs, BitVec.msb_eq_decide, decide_eq_true_iff]

/-- A write to a place, register or memory, reaches no flag. -/
theorem writePlace_sameFlags {p : Place} {v : Word} {s s1 t : State} (h : writePlace p v s s1 = .ok t) :
    SameFlags s1 t := by
  obtain ⟨r, -, rfl⟩ | ⟨m, -, -, -, rfl⟩ := writePlace_ok h
  · exact ⟨writeReg_zf .., writeReg_sf ..⟩
  · exact ⟨setMem_zf .., setMem_sf ..⟩

variable {i : Instr} {s t : State}

theorem isAlu_of_aluMnemonic {op : AluOp} (h : i.record.mnemonic = AluOp.mnemonic op) : isAlu i = true := by
  cases op <;> simp [isAlu, h, AluOp.mnemonic]

theorem isAlu_eq_false_of_mov (h : i.record.mnemonic = .mov) : isAlu i = false := by simp [isAlu, h]

theorem isAlu_eq_false_of_handlerless (h : isHandlerless i = true) : isAlu i = false := by
  simp only [isHandlerless, Bool.and_eq_true, Bool.not_eq_true'] at h
  exact h.1.2

/-- A completed `add`, `sub` or `cmp` leaves the flags of its result (R102). -/
theorem Completes.flagsOf (h : Completes i s t) (hi : isAlu i = true) :
    ∃ (dst : Reg) (src : Operand) (b : Word), i.record.operands = [.register dst, src] ∧ readOperand src s = .ok b ∧
      FlagsOf (if i.record.mnemonic = .add then sum16 (readReg s dst).toNat b.toNat
        else difference16 (readReg s dst).toNat b.toNat) t := by
  cases h with
  | alu op r src b hm _ ho _ hr ht =>
    refine ⟨r, src, b, ho, hr, ?_⟩
    rw [hm, ← aluResult_toNat]
    exact flagsOf_toNat (by simp [ht]) (by simp [ht])
  | mov _ _ _ _ hm => simp [isAlu_eq_false_of_mov hm] at hi
  | jnz d hd => subst hd; cases hi
  | handlerless _ hh => simp [isAlu_eq_false_of_handlerless hh] at hi

/-- Whatever else completes leaves both flags (R102). -/
theorem Completes.sameFlags (h : Completes i s t) (hi : isAlu i = false) : SameFlags s t := by
  cases h with
  | alu op _ _ _ hm => simp [isAlu_of_aluMnemonic hm] at hi
  | mov dst src v u _ _ _ _ hu ht =>
    have written : SameFlags (advance i.len s) u := writePlace_sameFlags hu
    simpa [ht, SameFlags] using written
  | jnz d _ ht => cases hz : s.zf <;> simp [ht, hz, SameFlags]
  | handlerless d _ _ _ _ ht => simp [ht, SameFlags]

/-- Settles O14: `SetFlags` by its field lemmas, the instructions by the four ways one completes. -/
theorem flagsAreSetByTheAluAlone : Obligations.FlagsAreSetByTheAluAlone :=
  ⟨fun _ _ => ⟨flagsOf_toNat rfl rfl, fun _ => rfl, fun _ => rfl, rfl⟩,
    fun _ _ _ hi h => (exec_next h).flagsOf hi,
    fun _ _ _ hi h => (exec_next h).sameFlags hi⟩

end Sys2Proof.Machine
end

section
/-! PROOFS. The three ALU operations of one form take one course: they are refused alike, or they commit over the same
operands (40_datapath.md R104); so `cmp` is `sub` without the write, and none of them faults. -/

namespace Sys2Proof.Machine

/-- What `run op` does for `add`, `sub` and `cmp` of one form in `s`: the same refusal for all three, or the commit of each over
one destination, the same two values and the same advance. -/
inductive AluCourse (run : AluOp → Result) (s : State) : Prop where
  | refuses (r : Refusal) (h : ∀ op, run op = .refused r)
  | commits (dst : Reg) (a b : Word) (len : Nat) (h : ∀ op, run op = finish .ok (aluCommit op dst a b (advance len s)))

theorem aluTo_course (w : Width) (dst : Place) (src : Operand) (len : Nat) (s : State) :
    AluCourse (fun op => aluTo op w dst src len s) s := by
  cases w with
  | byte => exact .refuses _ fun _ => rfl
  | word =>
    cases dst with
    | memory m => cases src <;> exact .refuses _ fun _ => rfl
    | register r =>
      cases src with
      | memory m => exact .refuses _ fun _ => rfl
      | register q => exact .commits _ _ _ _ fun _ => rfl
      | immediate v size => exact .commits _ _ _ _ fun _ => rfl

theorem aluAcc_course (w : Width) (imm : ImmField) (len : Nat) (s : State) :
    AluCourse (fun op => aluAcc op w imm len s) s := by
  cases w with
  | byte => exact .refuses _ fun _ => rfl
  | word => exact .commits _ _ _ _ fun _ => rfl

theorem AluCourse.ne_fault {run : AluOp → Result} {s : State} (h : AluCourse run s) (op : AluOp) (f : Fault) :
    run op ≠ .fault f := by
  cases h with
  | refuses r h => simp [h]
  | commits dst a b len h => simp [h, finish]

/-- `cmp` and `sub` of one form: the same refusal, or two commits that differ in the register write alone. -/
theorem AluCourse.comparesLike {run : AluOp → Result} {s : State} {c u : Instr} (h : AluCourse run s)
    (hc : exec c s = run .cmp) (hu : exec u s = run .sub) : ComparesLike c u s := by
  unfold ComparesLike
  rw [hc, hu]
  cases h with
  | refuses r h => simp [h]
  | commits dst a b len h =>
    refine ⟨by simp [h, finish], by simp [h, finish], fun v hv => ?_⟩
    rw [h, finish_eq_next] at hv
    subst hv
    refine ⟨_, h .cmp, ?flags, ?pointer, ?registers, ?memory⟩
    case flags => exact ⟨rfl, rfl⟩
    case pointer => simp
    case registers => exact fun r => by simp [readReg_aluCommit_cmp]
    case memory => exact fun a => by simp

/-- Settles O34: in each family the two are the same form of one run. -/
theorem cmpIsSubWithoutTheWrite : Obligations.CmpIsSubWithoutTheWrite := fun s =>
  ⟨fun _ _ _ _ => (aluTo_course _ _ _ _ s).comparesLike rfl rfl,
    fun _ _ _ _ => (aluTo_course _ _ _ _ s).comparesLike rfl rfl,
    fun _ _ => (aluAcc_course _ _ _ s).comparesLike rfl rfl⟩

end Sys2Proof.Machine
end

section
/-! PROOFS. Where a fault of the executor comes from (40_datapath.md R110). -/

namespace Sys2Proof.Machine

variable {s : State} {f : Fault}

/-! ### Operands that fault -/

theorem readOperand_error {o : Operand} (h : readOperand o s = .error f) :
    ∃ m, o = .memory m ∧ memRead16 s (effectiveAddress m s) = .error f := by
  cases o with
  | memory m => exact ⟨m, rfl, h⟩
  | register r => cases h
  | immediate v size => cases h

/-- The range check of a write looks at the address alone, so the fault is the one the write raises in `s` itself. -/
theorem writePlace_error {p : Place} {v : Word} {s1 : State} (h : writePlace p v s s1 = .error f) :
    ∃ m, p = .memory m ∧ memWrite16 s (effectiveAddress m s) v = .error f := by
  cases p with
  | memory m => exact ⟨m, rfl, memWrite16_error.mpr (memWrite16_error.mp h)⟩
  | register r => cases h

/-! ### Instructions that fault -/

/-- The word read or the word write at the effective address of `m` raises `f` in `s`. -/
def AccessFaults (m : MemOperand) (s : State) (f : Fault) : Prop :=
  memRead16 s (effectiveAddress m s) = .error f ∨ ∃ v : Word, memWrite16 s (effectiveAddress m s) v = .error f

theorem AccessFaults.outOfRange {m : MemOperand} (h : AccessFaults m s f) :
    f = .addressOutOfRange (effectiveAddress m s) 2 := by
  obtain hr | ⟨v, hw⟩ := h
  · exact (memRead16_error.mp hr).2
  · exact (memWrite16_error.mp hw).2

/-- Everything a `mov` that faults can do: its source cannot be read or its destination cannot be written. -/
theorem movTo_fault {w : Width} {dst : Place} {src : Operand} {len : Nat} (h : movTo w dst src len s = .fault f) :
    ∃ m, .memory m ∈ [dst.operand, src] ∧ AccessFaults m s f := by
  cases w with
  | byte => cases h
  | word =>
    simp only [movTo] at h
    split at h
    next g hread =>
      cases h
      obtain ⟨m, rfl, hm⟩ := readOperand_error hread
      exact ⟨m, by simp, .inl hm⟩
    next v _ =>
      split at h
      next g hwrite =>
        cases h
        obtain ⟨m, rfl, hm⟩ := writePlace_error hwrite
        exact ⟨m, by simp [Place.operand], .inr ⟨v, hm⟩⟩
      next => cases h

theorem execMovAccMem_eq_movTo (w : Width) (a : Word) (s : State) :
    execMovAccMem w a s = movTo w (.register .ax) (.memory ⟨.direct, a⟩) 3 s := by cases w <;> rfl

theorem execMovMemAcc_eq_movTo (w : Width) (a : Word) (s : State) :
    execMovMemAcc w a s = movTo w (.memory ⟨.direct, a⟩) (.register .ax) 3 s := by cases w <;> rfl

theorem execMovRegImm_ne_fault (w : Width) (r : Reg) (imm : ImmField) : execMovRegImm w r imm s ≠ .fault f := by
  cases w <;> simp [execMovRegImm, finish]

theorem noHandlerStep_ne_fault (m : Mnemonic) : noHandlerStep m s ≠ .fault f := by
  obtain ⟨-, h⟩ | ⟨-, h⟩ := noHandlerStep_cases m s <;> simp [h]

/-- Everything an instruction that faults can be: a `mov` with a memory operand that cannot be read or written (R110). -/
theorem exec_fault {i : Instr} (h : exec i s = .fault f) :
    i.record.mnemonic = .mov ∧ ∃ m, .memory m ∈ i.record.operands ∧ AccessFaults m s f := by
  cases i with
  | movRm | movIm => exact ⟨rfl, movTo_fault h⟩
  | movAccMem w a => exact ⟨rfl, movTo_fault ((execMovAccMem_eq_movTo w a s).symm.trans h)⟩
  | movMemAcc w a => exact ⟨rfl, movTo_fault ((execMovMemAcc_eq_movTo w a s).symm.trans h)⟩
  | movRegImm => exact absurd h (execMovRegImm_ne_fault _ _ _)
  | addRm | addIm => exact absurd h ((aluTo_course ..).ne_fault .add f)
  | subRm | subIm => exact absurd h ((aluTo_course ..).ne_fault .sub f)
  | cmpRm | cmpIm => exact absurd h ((aluTo_course ..).ne_fault .cmp f)
  | addAcc => exact absurd h ((aluAcc_course ..).ne_fault .add f)
  | subAcc => exact absurd h ((aluAcc_course ..).ne_fault .sub f)
  | cmpAcc => exact absurd h ((aluAcc_course ..).ne_fault .cmp f)
  | jnz => cases h
  | _ => exact absurd h (noHandlerStep_ne_fault _)

/-- Settles O30: a fault is that of a `mov`'s memory access, whose report is the one `CheckEA` makes. -/
theorem executorFaultsOnlyOnAddresses : Obligations.ExecutorFaultsOnlyOnAddresses := by
  intro i s f h
  obtain ⟨hmov, m, hmem, haccess⟩ := exec_fault h
  exact ⟨decide_eq_true hmov, ⟨_, _, haccess.outOfRange⟩, m, hmem, haccess⟩

end Sys2Proof.Machine
end

section
/-! PROOFS. The decode-only pass is the linear sweep (40_datapath.md R92). -/

namespace Sys2Proof.Machine

theorem DecodePass.run_of_failed {d : DecodePass} {e : DecodeError} (h : d.turn = .failed e) (fuel : Nat) :
    d.run (fuel + 1) = ([], some e) := by
  simp [DecodePass.run, h]

theorem DecodePass.turn_of_error {d : DecodePass} {e : DecodeError} (hp : d.p < d.buf.length)
    (h : decode d.buf d.p = .error e) : d.turn = .failed e := by
  simp [DecodePass.turn, hp, h]

/-- As many turns as bytes are left are enough, since every turn that yields consumes at least one (R74). -/
theorem DecodePass.run_sweeps (fuel : Nat) (d : DecodePass) (h : d.buf.length ≤ d.p + fuel) :
    Sweeps d.buf d.p (d.run fuel).1 (d.run fuel).2 := by
  induction fuel generalizing d with
  | zero => exact .done h
  | succ fuel ih =>
    by_cases hp : d.p < d.buf.length
    · cases hd : decode d.buf d.p with
      | error e =>
        rw [run_of_failed (turn_of_error hp hd)]
        exact .failed hp hd
      | ok r =>
        obtain ⟨i, len⟩ := r
        have progress : 2 ≤ len := decode_consumed hd ▸ i.len_bounds.1
        rw [run_of_yields (turn_of_decode hp hd)]
        exact .yields hp hd (ih ⟨d.buf, d.p + len⟩ (by simp only; omega))
    · rw [run_at_end (Nat.not_lt.mp hp)]
      exact .done (Nat.not_lt.mp hp)

/-- Settles O49: `decodeAll` is a run from offset 0 with as many turns as the buffer has bytes. -/
theorem decodeAllIsTheSweep : Obligations.DecodeAllIsTheSweep := fun buf =>
  DecodePass.run_sweeps buf.length (.start buf) (Nat.le_add_left ..)

end Sys2Proof.Machine
end

section
/-! PROOFS. The relative branch of `jnz` (45_jumps_loops.md R165): its decode, the one state it completes in, and the step at
a target that leaves the buffer (40_datapath.md R90). -/

namespace Sys2Proof

/-! ### Signed readings -/

/-- Sign extension keeps the signed value (R7). -/
theorem sext16_toInt (b : Byte) : (sext16 b).toInt = b.toInt := by
  have := b.isLt
  rw [word_toInt, sext16_toNat, BitVec.toInt_eq_toNat_cond]
  by_cases positive : b.toNat < 128
  · rw [if_pos positive, if_pos (by omega), if_pos (by omega)]
  · rw [if_neg positive, if_neg (by omega), if_neg (by omega)]
    omega

/-- Adding a word moves a pointer by the word's signed value, modulo 2^16. -/
theorem add_toNat_signed (a d : Word) : ((a + d).toNat : Int) = (a.toNat + d.toInt) % 65536 := by
  have := d.isLt
  rw [BitVec.toNat_add, word_toInt]
  omega

/-! ### Decoding a jump -/

section DecodeJump

variable {buf : List Byte} {p : Nat} {op : Byte}

theorem decode_of_lookup {sel : Selector} (hop : buf[p]? = some op) (hsel : lookup op = some sel) :
    decode buf p = decodeFamily sel op buf p := by
  unfold decode
  rw [bind_of_ok (fetch8_ok.mpr hop), hsel]

theorem decodeFamily_jump (j : Jump) :
    decodeFamily (.jump j) op buf p = fetch8 buf (p + 1) >>= fun d => .ok (j.instr d, 2) := rfl

theorem lookup_jnz : lookup 0x75#8 = some (.jump .jnz) := by decide

theorem decode_jnz {d : Byte} (hop : buf[p]? = some 0x75#8) (hd : buf[p + 1]? = some d) :
    decode buf p = .ok (.jnz d, 2) := by
  rw [decode_of_lookup hop lookup_jnz, decodeFamily_jump]
  exact bind_of_ok (fetch8_ok.mpr hd)

theorem decode_jnz_truncated (hop : buf[p]? = some 0x75#8) (hlen : buf.length = p + 1) :
    decode buf p = .error (.outOfBounds (p + 1)) := by
  rw [decode_of_lookup hop lookup_jnz, decodeFamily_jump]
  exact bind_of_error (fetch8_error.mpr ⟨hlen.le, rfl⟩)

end DecodeJump

end Sys2Proof

namespace Sys2Proof.Machine

/-! ### The branch -/

/-- What `jnz` adds to the advanced pointer: the sign-extended displacement, or nothing where it is not taken. -/
def jnzOffset (d : Byte) (s : State) : Word := if s.zf = false then sext16 d else 0#16

theorem jnzOffset_toInt (d : Byte) (s : State) :
    (jnzOffset d s).toInt = if s.zf = false then d.toInt else 0 := by
  unfold jnzOffset
  split
  next => exact sext16_toInt d
  next => rfl

theorem branchBy_zero (s : State) : branchBy 0#16 s = s := by simp [branchBy]

/-- `jnz` completes in every state; taken or not, it is the advance and one addition to `ip`. -/
theorem exec_jnz (d : Byte) (s : State) :
    exec (.jnz d) s = .next (setStatus (branchBy (jnzOffset d s) (advance 2 s)) .ok) := by
  have unfolded : exec (.jnz d) s = branchIfNotZero (sext16 d) s := rfl
  rw [unfolded, branchIfNotZero, finish_eq_next]
  cases hz : s.zf with
  | false => simp [jnzOffset, hz]
  | true => simp [jnzOffset, hz, branchBy_zero]

/-- The displacement counts from the offset of the next instruction (R165). -/
theorem jnz_target (d : Byte) (s : State) :
    ((s.ip + 2#16 + jnzOffset d s).toNat : Int) =
      (s.ip.toNat + 2 + (if s.zf = false then d.toInt else 0)) % 65536 := by
  have advanced : ((s.ip + 2#16).toNat : Int) = (s.ip.toNat + 2) % 65536 := add_toNat_signed s.ip 2#16
  rw [add_toNat_signed, advanced, jnzOffset_toInt, Int.emod_add_emod]

/-! ### A step that fetches no instruction -/

variable {s : State}

theorem step_at_end (h : s.ip.toNat = s.buf.length) : step s = .fault .endOfBuffer := by
  rw [step, fetchDecode, if_pos h]

theorem step_past_end (h : s.buf.length < s.ip.toNat) : step s = .fault (.fetchOutOfBounds s.ip) := by
  rw [step, fetchDecode, if_neg h.ne', if_pos h]

theorem stepReport_at_end (h : s.ip.toNat = s.buf.length) : stepReport s = .halt := by
  rw [stepReport, step_at_end h]

theorem stepReport_past_end (h : s.buf.length < s.ip.toNat) : stepReport s = .fault (.fetchOutOfBounds s.ip) := by
  rw [stepReport, step_past_end h]

/-- Settles O27: the decode by its two fetches, the rest by the one state `jnz` completes in, of which only `ip` and the
status are new. -/
theorem jnzBranchesOnZeroClear : Obligations.JnzBranchesOnZeroClear := by
  refine ⟨by decide, fun buf p hop => ⟨fun d => decode_jnz hop, decode_jnz_truncated hop⟩, fun d s => ?branch⟩
  case branch =>
    have done := exec_next (exec_jnz d s)
    refine ⟨_, exec_jnz d s, ?pointer, ?registers, done.sameFlags rfl, ?memory, done.sameInputs, rfl,
      stepReport_past_end, stepReport_at_end⟩
    case pointer => exact jnz_target d s
    case registers => exact fun r => by simp
    case memory => exact fun a => by simp

end Sys2Proof.Machine
end

section
/-! PROOFS. The frame of a completed instruction: what each of the four ways to complete does to memory, to the registers,
to `ip` and to the status (10_state.md sections 1, 2 and 5; 40_datapath.md sections 5 and 6). -/

namespace Sys2Proof.Machine

variable {i : Instr} {s t : State}

/-! ### Memory -/

/-- The memory with the word `v` at `a`, low byte first: the two writes of a word store (R34). -/
def Memory.writeWord (m : Memory) (a : Nat) (v : Word) : Memory := (m.write a (lowByte v)).write (a + 1) (highByte v)

theorem Memory.read_writeWord (m : Memory) (a k : Nat) (v : Word) :
    (m.writeWord a v).read k = if k = a then lowByte v else if k = a + 1 then highByte v else m.read k :=
  read_wordWrite m a k _ _

/-- A word store in the low 64 KiB keeps the canonical form. -/
theorem Memory.wf_writeWord {m : Memory} {a : Nat} (v : Word) (h : m.wf = true) (ha : a ≤ 65534) :
    (m.writeWord a v).wf = true :=
  wf_wordWrite _ _ h ha

/-- Everything a completed instruction can do to memory: nothing, and then no memory operand is its destination; or a `mov`
stores a word at the effective address of its destination, which is in range (R20, R97). -/
theorem Completes.memory (h : Completes i s t) :
    (t.mem = s.mem ∧ ∀ m, ¬ writesMemoryAt i m) ∨
    ∃ m v, i.record.mnemonic = .mov ∧ writesMemoryAt i m ∧ 0 ≤ effectiveAddress m s ∧ effectiveAddress m s ≤ 65534 ∧
      t.mem = s.mem.writeWord (effectiveAddress m s).toNat v := by
  cases h with
  | mov dst src v u hm _ ho _ hu ht =>
    obtain ⟨r, rfl, rfl⟩ | ⟨m, rfl, hlow, hhigh, rfl⟩ := writePlace_ok hu
    · exact .inl ⟨by simp [ht], by simp [writesMemoryAt, ho, Place.operand]⟩
    · exact .inr ⟨m, v, hm, by simp [writesMemoryAt, ho, Place.operand], hlow, hhigh, by simp [ht, Memory.writeWord]⟩
  | alu op r src b _ _ ho _ _ ht => exact .inl ⟨by simp [ht], by simp [writesMemoryAt, ho]⟩
  | jnz d hi ht =>
    subst hi
    exact .inl ⟨by cases hz : s.zf <;> simp [ht, hz], fun m hm => nomatch hm⟩
  | handlerless d _ _ ho _ ht => exact .inl ⟨by simp [ht], by simp [writesMemoryAt, ho]⟩

/-- Settles O33: the destination of the one instruction that stores is its `mov`'s memory operand. -/
theorem onlyTheStoredBytesChange : Obligations.OnlyTheStoredBytesChange := by
  intro i s t h
  obtain ⟨hmem, hnone⟩ | ⟨m, v, hmov, hdst, hlow, -, hmem⟩ := (exec_next h).memory
  · exact ⟨fun m hm => absurd hm (hnone m), fun _ a => by rw [hmem]⟩
  · refine ⟨fun m' hm' => ?stored, fun hnone => absurd hdst (hnone m)⟩
    case stored =>
      obtain rfl : m' = m := by
        have same : some (Operand.memory m') = some (.memory m) := hm'.symm.trans hdst
        cases same
        rfl
      refine ⟨decide_eq_true hmov, hlow, fun a h1 h2 => ?_⟩
      rw [hmem, Memory.read_writeWord, if_neg h1, if_neg h2]

/-! ### Registers -/

/-- A write to a place changes no register but the one the place names. -/
theorem writePlace_registers {p : Place} {v : Word} {s1 : State} (h : writePlace p v s s1 = .ok t) :
    SameRegs s1 t ∨ ∃ r, p = .register r ∧ SameRegsBut r s1 t := by
  obtain ⟨r, rfl, rfl⟩ | ⟨m, -, -, -, rfl⟩ := writePlace_ok h
  · exact .inr ⟨r, rfl, fun q hq => readReg_writeReg_other _ _ hq⟩
  · exact .inl fun q => readReg_setMem _ _ q

/-- Everything a completed instruction can do to the registers: nothing, or a change of its destination alone, and then it is
no `cmp` (R12, R104). -/
theorem Completes.registers (h : Completes i s t) :
    SameRegs s t ∨
    ∃ r, i.record.operands.head? = some (.register r) ∧ i.record.mnemonic ≠ .cmp ∧ SameRegsBut r s t := by
  cases h with
  | mov dst src v u hm _ ho _ hu ht =>
    obtain same | ⟨r, rfl, others⟩ := writePlace_registers hu
    · exact .inl fun q => by simp [ht, same q]
    · exact .inr ⟨r, by simp [ho, Place.operand], by simp [hm], fun q hq => by simp [ht, others q hq]⟩
  | alu op r src b hm _ ho _ _ ht =>
    cases op with
    | cmp => exact .inl fun q => by simp [ht, readReg_aluCommit_cmp]
    | add | sub =>
      exact .inr ⟨r, by simp [ho], by simp [hm, AluOp.mnemonic],
        fun q hq => by simp [ht, readReg_aluCommit_other _ _ _ _ _ hq]⟩
  | jnz d _ ht => exact .inl fun q => by cases hz : s.zf <;> simp [ht, hz]
  | handlerless d _ _ _ _ ht => exact .inl fun q => by simp [ht]

theorem SameRegs.sameRegsBut (h : SameRegs s t) (r : Reg) : SameRegsBut r s t := fun q _ => h q

/-- Settles O32: the one register that can change is the destination, and `cmp` changes none. -/
theorem atMostOneRegisterChanges : Obligations.AtMostOneRegisterChanges := by
  intro i s t h
  obtain same | ⟨r, hdst, hcmp, others⟩ := (exec_next h).registers
  · exact ⟨fun r _ => same.sameRegsBut r, fun _ => same⟩
  · refine ⟨fun q hq => ?destination, fun hnone => ?none⟩
    case destination =>
      obtain rfl : r = q := by simpa [hdst] using hq
      exact others
    case none => exact hnone.elim (fun hreg => absurd hdst (hreg r)) (fun h => absurd h hcmp)

/-! ### Pointer and status -/

theorem advancedBy_of_ip {n : Nat} (h : t.ip = s.ip + BitVec.ofNat 16 n) : AdvancedBy n s t := by
  rw [AdvancedBy, h, BitVec.toNat_add, BitVec.toNat_ofNat, Nat.add_mod_mod]

theorem writePlace_ip {p : Place} {v : Word} {s1 : State} (h : writePlace p v s s1 = .ok t) : t.ip = s1.ip := by
  obtain ⟨r, -, rfl⟩ | ⟨m, -, -, -, rfl⟩ := writePlace_ok h
  · exact writeReg_ip ..
  · exact setMem_ip ..

/-- Settles O35: in every way to complete but a taken `jnz` the pointer is the advanced one. -/
theorem pointerAdvancesByLength : Obligations.PointerAdvancesByLength := by
  intro i s t h
  cases exec_next h with
  | mov dst src v u _ _ _ _ hu ht => exact .inl (advancedBy_of_ip (by simp [ht, writePlace_ip hu]))
  | alu op r src b _ _ _ _ _ ht => exact .inl (advancedBy_of_ip (by simp [ht]))
  | jnz d hi ht =>
    subst hi
    cases hz : s.zf with
    | false => exact .inr ⟨rfl, rfl⟩
    | true => exact .inl (advancedBy_of_ip (by simp [ht, hz, Instr.len]))
  | handlerless d _ hl _ _ ht => exact .inl (advancedBy_of_ip (by simp [ht, hl]))

theorem isHandlerless_eq_false_of_mov (h : i.record.mnemonic = .mov) : isHandlerless i = false := by
  simp [isHandlerless, isMov, h]

theorem isHandlerless_eq_false_of_alu (h : isAlu i = true) : isHandlerless i = false := by
  simp [isHandlerless, h]

/-- Settles O36: each way to complete drives its own status. -/
theorem statusMarksTheHandlerless : Obligations.StatusMarksTheHandlerless := by
  intro i s t h
  cases exec_next h with
  | mov dst src v u hm _ _ _ _ ht => simp [ht, isHandlerless_eq_false_of_mov hm]
  | alu op r src b hm _ _ _ _ ht => simp [ht, isHandlerless_eq_false_of_alu (isAlu_of_aluMnemonic hm)]
  | jnz d hi ht =>
    subst hi
    rw [ht]
    rfl
  | handlerless d hh _ _ _ ht => simp [ht, hh]

/-! ### The invariant -/

/-- The sign bit of zero is clear, so a result never sets both flags (R18). -/
theorem FlagsOf.not_both {r : Nat} (h : FlagsOf r t) : ¬ (t.zf = true ∧ t.sf = true) := by
  obtain ⟨hz, hs⟩ := h
  rw [hz, hs]
  omega

theorem Completes.flags_not_both (h : Completes i s t) (hs : ¬ (s.zf = true ∧ s.sf = true)) :
    ¬ (t.zf = true ∧ t.sf = true) := by
  cases halu : isAlu i with
  | true =>
    obtain ⟨_, _, _, -, -, hflags⟩ := h.flagsOf halu
    exact hflags.not_both
  | false =>
    obtain ⟨hz, hsf⟩ := h.sameFlags halu
    rwa [hz, hsf]

theorem Completes.wf_mem (h : Completes i s t) (hs : s.mem.wf = true) : t.mem.wf = true := by
  obtain ⟨hmem, -⟩ | ⟨m, v, -, -, hlow, hhigh, hmem⟩ := h.memory
  · rwa [hmem]
  · rw [hmem]
    exact Memory.wf_writeWord v hs (by omega)

/-- No word store reaches a cell from 65,536 on (R37). -/
theorem Completes.read_upper (h : Completes i s t) {a : Nat} (ha : 65536 ≤ a) : t.mem.read a = s.mem.read a := by
  obtain ⟨hmem, -⟩ | ⟨m, v, -, -, hlow, hhigh, hmem⟩ := h.memory
  · rw [hmem]
  · rw [hmem, Memory.read_writeWord, if_neg (by omega), if_neg (by omega)]

theorem Completes.inv (h : Completes i s t) (hs : Inv s) : Inv t where
  memory := h.wf_mem hs.memory
  flags := h.flags_not_both hs.flags
  upper a ha := (h.read_upper ha).trans (hs.upper a ha)
  buffer := by
    rw [h.sameInputs.1]
    exact hs.buffer

/-- Settles O3: a completed step runs an instruction, and each part of the invariant is kept by it. -/
theorem everyStepKeepsTheInvariant : Obligations.EveryStepKeepsTheInvariant := by
  intro s t hs h
  obtain ⟨-, i, n, -, hexec⟩ := step_next h
  exact (exec_next hexec).inv hs

theorem inv_load {program : List Byte} (h : program.length ≤ 65535) : Inv (State.load program) where
  memory := rfl
  flags := by simp [State.load, State.reset]
  upper a _ := read_reset a
  buffer := h

/-- Settles O2: reset is the load of the empty program. -/
theorem invariantHoldsAtReset : Obligations.InvariantHoldsAtReset :=
  ⟨inv_load (program := []) (Nat.zero_le _), fun _ => inv_load⟩

end Sys2Proof.Machine
end

section
/-! PROOFS. The encoder's parts for the decoder's proofs: bytes that stand at an offset of a buffer, the layout of a
mode-reg-rm byte, the eight families the 34 instructions fall into (30_encoding.md R51 to R55), and the opcode byte of an
entry of the pattern list (R60). -/

namespace Sys2Proof

/-! ### Bytes standing at an offset -/

/-- The bytes `bs` are those of `buf` from offset `p` on. -/
def StandsAt (bs buf : List Byte) (p : Nat) : Prop := bs <+: buf.drop p

section StandsAt

variable {as bs buf : List Byte} {p : Nat} {b : Byte}

theorem standsAt_iff_getElem? : StandsAt bs buf p ↔ ∀ (k : Nat) (h : k < bs.length), buf[p + k]? = some bs[k] := by
  simp only [StandsAt, List.prefix_iff_getElem?, List.getElem?_drop]

@[simp] theorem standsAt_nil : StandsAt [] buf p := List.nil_prefix

theorem standsAt_append : StandsAt (as ++ bs) buf p ↔ StandsAt as buf p ∧ StandsAt bs buf (p + as.length) := by
  unfold StandsAt
  rw [← List.drop_drop]
  constructor
  · rintro ⟨rest, h⟩
    rw [← h, List.append_assoc, List.drop_left]
    exact ⟨List.prefix_append .., List.prefix_append ..⟩
  · rintro ⟨⟨rest, h⟩, hbs⟩
    rw [← h, List.drop_left] at hbs
    rw [← h]
    exact (List.prefix_append_right_inj as).mpr hbs

theorem standsAt_singleton : StandsAt [b] buf p ↔ buf[p]? = some b := by
  simp [standsAt_iff_getElem?]

theorem standsAt_cons : StandsAt (b :: bs) buf p ↔ buf[p]? = some b ∧ StandsAt bs buf (p + 1) := by
  rw [← standsAt_singleton]
  exact standsAt_append (as := [b])

theorem standsAt_past (before bs after : List Byte) : StandsAt bs (before ++ bs ++ after) before.length := by
  rw [StandsAt, List.append_assoc, List.drop_left]
  exact List.prefix_append ..

/-- Bytes that stand in a buffer end inside it. -/
theorem StandsAt.end_le (h : StandsAt bs buf p) (hp : p ≤ buf.length) : p + bs.length ≤ buf.length := by
  have := h.length_le
  rw [List.length_drop] at this
  omega

theorem standsAt_wordBytes {v : Word} :
    StandsAt (wordBytes v) buf p ↔ buf[p]? = some (lowByte v) ∧ buf[p + 1]? = some (highByte v) := by
  rw [wordBytes, standsAt_cons, standsAt_singleton]

end StandsAt

/-! ### The mode-reg-rm byte -/

/-- The `mod` field of an addressing mode (R61). -/
def RmOperand.modBits : RmOperand → BitVec 2
  | .reg _ => 3#2
  | .direct _ | .mem0 _ => 0#2
  | .mem8 _ _ => 1#2
  | .mem16 _ _ => 2#2

/-- The `rm` field of an addressing mode (R61). -/
def RmOperand.rmBits : RmOperand → BitVec 3
  | .reg r => r.bits
  | .direct _ => 6#3
  | .mem0 b | .mem8 b _ | .mem16 b _ => b.bits

/-- The displacement or address bytes of an addressing mode (R61). -/
def RmOperand.dispBytes : RmOperand → List Byte
  | .reg _ | .mem0 _ => []
  | .direct a => wordBytes a
  | .mem8 _ d => [d]
  | .mem16 _ d => wordBytes d

theorem modRmBytes_eq (reg : BitVec 3) (rm : RmOperand) :
    modRmBytes reg rm = (rm.modBits ++ reg ++ rm.rmBits) :: rm.dispBytes := by cases rm <;> rfl

@[simp] theorem RmOperand.dispBytes_length (rm : RmOperand) : rm.dispBytes.length = rm.dispLength := by cases rm <;> rfl

/-! ### The eight families -/

/-- The opcode bits above `D` and `W` of a member of format RM (R51). -/
def RmKind.opcode : RmKind → BitVec 6
  | .mov => 0b100010#6
  | .alu .add => 0b000000#6
  | .alu .sub => 0b001010#6
  | .alu .cmp => 0b001110#6

/-- The secondary field of an ALU operation (R68). -/
def AluOp.field : AluOp → BitVec 3
  | .add => 0b000#3
  | .sub => 0b101#3
  | .cmp => 0b111#3

/-- The opcode bits above `W` of an ALU operation in format ACC (R53). -/
def AluOp.accOpcode : AluOp → BitVec 7
  | .add => 0b0000010#7
  | .sub => 0b0010110#7
  | .cmp => 0b0011110#7

/-- The opcode byte of a jump or loop (R55). -/
def Jump.opcode (j : Jump) : Byte := (j.instr 0#8).rawOpcode

/-- The instructions by the entry of the pattern list that selects them (R60). -/
inductive Instr.Family : Instr → Prop where
  | rm (k : RmKind) (d : Dir) (w : Width) (reg : Reg) (rm : RmOperand) : Family (k.instr d w reg rm)
  | movIm (w : Width) (ignored : BitVec 3) (rm : RmOperand) (imm : ImmField) : Family (.movIm w ignored rm imm)
  | aluIm (op : AluOp) (s : Bool) (w : Width) (rm : RmOperand) (imm : ImmField) : Family (op.imInstr s w rm imm)
  | movAccMem (w : Width) (a : Word) : Family (.movAccMem w a)
  | movMemAcc (w : Width) (a : Word) : Family (.movMemAcc w a)
  | aluAcc (op : AluOp) (w : Width) (imm : ImmField) : Family (op.accInstr w imm)
  | movRegImm (w : Width) (reg : Reg) (imm : ImmField) : Family (.movRegImm w reg imm)
  | jump (j : Jump) (d : Byte) : Family (j.instr d)

theorem Instr.family (i : Instr) : i.Family := by
  cases i with
  | movRm d w reg rm => exact .rm .mov d w reg rm
  | addRm d w reg rm => exact .rm (.alu .add) d w reg rm
  | subRm d w reg rm => exact .rm (.alu .sub) d w reg rm
  | cmpRm d w reg rm => exact .rm (.alu .cmp) d w reg rm
  | movIm w ignored rm imm => exact .movIm w ignored rm imm
  | addIm s w rm imm => exact .aluIm .add s w rm imm
  | subIm s w rm imm => exact .aluIm .sub s w rm imm
  | cmpIm s w rm imm => exact .aluIm .cmp s w rm imm
  | movAccMem w a => exact .movAccMem w a
  | movMemAcc w a => exact .movMemAcc w a
  | addAcc w imm => exact .aluAcc .add w imm
  | subAcc w imm => exact .aluAcc .sub w imm
  | cmpAcc w imm => exact .aluAcc .cmp w imm
  | movRegImm w reg imm => exact .movRegImm w reg imm
  | jo d => exact .jump .jo d
  | jno d => exact .jump .jno d
  | jb d => exact .jump .jb d
  | jnb d => exact .jump .jnb d
  | je d => exact .jump .je d
  | jnz d => exact .jump .jnz d
  | jbe d => exact .jump .jbe d
  | ja d => exact .jump .ja d
  | js d => exact .jump .js d
  | jns d => exact .jump .jns d
  | jp d => exact .jump .jp d
  | jnp d => exact .jump .jnp d
  | jl d => exact .jump .jl d
  | jnl d => exact .jump .jnl d
  | jle d => exact .jump .jle d
  | jg d => exact .jump .jg d
  | loopnz d => exact .jump .loopnz d
  | loopz d => exact .jump .loopz d
  | loop d => exact .jump .loop d
  | jcxz d => exact .jump .jcxz d

section Families

variable (k : RmKind) (op : AluOp) (j : Jump) (d : Dir) (s : Bool) (w : Width) (reg : Reg) (rm : RmOperand)
  (imm : ImmField) (disp : Byte)

theorem encode_rmInstr : encode (k.instr d w reg rm) = (k.opcode ++ d.bit ++ w.bit) :: modRmBytes reg.bits rm := by
  obtain _ | _ | _ | _ := k <;> rfl

theorem encode_imInstr :
    encode (op.imInstr s w rm imm) =
      (0b100000#6 ++ BitVec.ofBool s ++ w.bit) :: modRmBytes op.field rm ++ imm.bytes := by cases op <;> rfl

theorem encode_accInstr : encode (op.accInstr w imm) = (op.accOpcode ++ w.bit) :: imm.bytes := by cases op <;> rfl

theorem encode_jump : encode (j.instr disp) = [j.opcode, disp] := by cases j <;> rfl

theorem wf_rmInstr : (k.instr d w reg rm).wf = rm.wf := by obtain _ | _ | _ | _ := k <;> rfl

theorem wf_imInstr : (op.imInstr s w rm imm).wf = (rm.wf && imm.wf (immWide s w)) := by cases op <;> rfl

theorem wf_accInstr : (op.accInstr w imm).wf = imm.wf (immWide false w) := by cases op <;> rfl

theorem wf_jump : (j.instr disp).wf = true := by cases j <;> rfl

end Families

/-! ### The opcode byte of a selector -/

/-- The first byte of the instructions a selector stands for, with its `D`, `S`, `W` and `reg` bits those of `op` (R60). -/
def Selector.opcode (sel : Selector) (op : Byte) : Byte :=
  match sel with
  | .rm k => k.opcode ++ (Dir.ofBit op[1]).bit ++ (Width.ofBit op[0]).bit
  | .movIm => 0b1100011#7 ++ (Width.ofBit op[0]).bit
  | .aluIm => 0b100000#6 ++ BitVec.ofBool op[1] ++ (Width.ofBit op[0]).bit
  | .movAccMem => 0b1010000#7 ++ (Width.ofBit op[0]).bit
  | .movMemAcc => 0b1010001#7 ++ (Width.ofBit op[0]).bit
  | .aluAcc alu => alu.accOpcode ++ (Width.ofBit op[0]).bit
  | .movRegImm => 0b1011#4 ++ (Width.ofBit op[3]).bit ++ (Reg.ofBits (rmField op)).bits
  | .jump j => j.opcode

/-- An entry fixes every bit of the byte that its format does not keep in a field: all 256 bytes. -/
theorem lookup_opcode : ∀ op : Byte, (lookup op).all (fun sel => sel.opcode op == op) = true := by decide

theorem opcode_of_lookup {op : Byte} {sel : Selector} (h : lookup op = some sel) : sel.opcode op = op := by
  simpa [h] using lookup_opcode op

theorem lookup_rm (k : RmKind) (d : Dir) (w : Width) : lookup (k.opcode ++ d.bit ++ w.bit) = some (.rm k) := by
  obtain _ | _ | _ | _ := k <;> cases d <;> cases w <;> decide

theorem lookup_movIm (w : Width) : lookup (0b1100011#7 ++ w.bit) = some .movIm := by cases w <;> decide

theorem lookup_aluIm (s : Bool) (w : Width) : lookup (0b100000#6 ++ BitVec.ofBool s ++ w.bit) = some .aluIm := by
  cases s <;> cases w <;> decide

theorem lookup_movAccMem (w : Width) : lookup (0b1010000#7 ++ w.bit) = some .movAccMem := by cases w <;> decide

theorem lookup_movMemAcc (w : Width) : lookup (0b1010001#7 ++ w.bit) = some .movMemAcc := by cases w <;> decide

theorem lookup_aluAcc (op : AluOp) (w : Width) : lookup (op.accOpcode ++ w.bit) = some (.aluAcc op) := by
  cases op <;> cases w <;> decide

theorem lookup_movRegImm (w : Width) (reg : Reg) :
    lookup (0b1011#4 ++ w.bit ++ reg.bits) = some .movRegImm := by
  cases w <;> cases reg <;> decide

theorem lookup_jump (j : Jump) : lookup j.opcode = some (.jump j) := by cases j <;> decide

/-! ### The fields of an opcode byte -/

@[simp] theorem Dir.ofBit_getElem (x : BitVec 6) (d : Dir) (w : Width) : Dir.ofBit (x ++ d.bit ++ w.bit)[1] = d := by
  cases d <;> cases w <;> revert x <;> decide

@[simp] theorem Width.ofBit_getElem (x : BitVec 7) (w : Width) : Width.ofBit (x ++ w.bit)[0] = w := by
  cases w <;> revert x <;> decide

@[simp] theorem signBit_getElem (x : BitVec 6) (s : Bool) (w : Width) : (x ++ BitVec.ofBool s ++ w.bit)[1] = s := by
  cases s <;> cases w <;> revert x <;> decide

@[simp] theorem Width.ofBit_getElem_regImm (x : BitVec 4) (w : Width) (r : BitVec 3) :
    Width.ofBit (x ++ w.bit ++ r)[3] = w := by
  cases w <;> revert x r <;> decide

@[simp] theorem rmField_regImm (x : BitVec 4) (w : Width) (r : BitVec 3) : rmField (x ++ w.bit ++ r) = r := by
  cases w <;> revert x r <;> decide

theorem secondary_field (op : AluOp) : secondary op.field = some op := by cases op <;> rfl

theorem field_of_secondary {reg : BitVec 3} {op : AluOp} (h : secondary reg = some op) : op.field = reg := by
  revert reg
  cases op <;> decide

end Sys2Proof
end

section
/-! PROOFS. Decoding an encoded instruction (30_encoding.md R59 to R66; 60_exceptions.md R203): the decoder is a sequence of
fetches, one per field of the encoding. Where the fields stand it gives the instruction back; where the buffer ends among
them it fails at the first byte of the field that is cut. -/

namespace Sys2Proof

open Machine (fieldStart fieldLengths)

/-! ### Reading fields in sequence -/

/-- `x` reads the fields `fields` of `buf` from offset `q` on, each by one fetch: where they stand it answers `a`; where the
buffer ends after their first `k` bytes it fails at the first byte of the field that byte `k` falls in. -/
structure Reads {α : Type} (buf : List Byte) (q : Nat) (x : Except DecodeError α) (fields : List (List Byte)) (a : α) :
    Prop where
  full : StandsAt fields.flatten buf q → x = .ok a
  short : ∀ k, k < fields.flatten.length → buf.length = q + k → StandsAt (fields.flatten.take k) buf q →
    x = .error (.outOfBounds (q + fieldStart (fields.map List.length) k))

section Reads

variable {α β : Type} {buf : List Byte} {q : Nat} {x : Except DecodeError α} {a : α}

theorem Reads.pure : Reads buf q (.ok a) [] a where
  full _ := rfl
  short k hk _ _ := absurd hk (Nat.not_lt_zero k)

/-- A single fetch, of all the bytes of a field or of none. -/
theorem Reads.fetch {bs : List Byte} (full : StandsAt bs buf q → x = .ok a)
    (short : buf.length < q + bs.length → q ≤ buf.length → x = .error (.outOfBounds q)) : Reads buf q x [bs] a where
  full h := full (by simpa using h)
  short k hk hlen _ := by
    have hk : k < bs.length := by simpa using hk
    rw [short (by omega) (by omega)]
    simp [fieldStart, hk]

/-- A field and then the others, each from where the one before it ends. -/
theorem Reads.bind {f : α → Except DecodeError β} {bs : List Byte} {rest : List (List Byte)} {b : β} {q' : Nat}
    (hx : Reads buf q x [bs] a) (hq : q' = q + bs.length) (hf : Reads buf q' (f a) rest b) :
    Reads buf q (x >>= f) (bs :: rest) b where
  full h := by
    obtain ⟨hbs, hrest⟩ := standsAt_append.mp (List.flatten_cons ▸ h)
    rw [bind_of_ok (hx.full (by simpa using hbs)), hf.full (hq ▸ hrest)]
  short k hk hlen h := by
    rw [List.flatten_cons, List.length_append] at hk
    rw [List.flatten_cons, List.take_append] at h
    by_cases inside : k < bs.length
    · have hbs := (standsAt_append.mp h).1
      rw [bind_of_error (hx.short k (by simpa using inside) hlen (by simpa using hbs))]
      simp [fieldStart, inside]
    · rw [List.take_of_length_le (by omega)] at h
      obtain ⟨hbs, hrest⟩ := standsAt_append.mp h
      rw [bind_of_ok (hx.full (by simpa using hbs)), hf.short (k - bs.length) (by omega) (by omega) (hq ▸ hrest), hq]
      simp [fieldStart, inside, Nat.add_assoc]

end Reads

/-! ### The decoder's fetches -/

section Fetches

variable {buf : List Byte} {q : Nat}

theorem reads_fetch8 (b : Byte) : Reads buf q (fetch8 buf q) [[b]] b :=
  .fetch (fun h => fetch8_ok.mpr (standsAt_singleton.mp h))
    (fun hlen _ => fetch8_error.mpr ⟨Nat.le_of_lt_succ hlen, rfl⟩)

theorem reads_fetch16 (v : Word) : Reads buf q (fetch16 buf q) [wordBytes v] v :=
  .fetch (fun h => fetch16_ok.mpr ⟨_, _, (standsAt_wordBytes.mp h).1, (standsAt_wordBytes.mp h).2, by simp⟩)
    (fun hlen _ => fetch16_error.mpr ⟨Nat.le_of_lt_succ hlen, rfl⟩)

/-- A result computed from one fetch. -/
theorem Reads.map {α β : Type} {x : Except DecodeError α} {a : α} {b : β} {bs : List Byte} (h : Reads buf q x [bs] a)
    (g : α → β) (hb : g a = b) : Reads buf q (x >>= fun a => .ok (g a)) [bs] b :=
  h.bind rfl (hb ▸ .pure)

theorem reads_fetchImm {s : Bool} {w : Width} {imm : ImmField} (h : imm.wf (immWide s w) = true) :
    Reads buf q (fetchImm (immLength s w) buf q) [imm.bytes] imm := by
  rw [← imm.bytes_length s w h]
  cases imm with
  | imm16 v => exact (reads_fetch16 v).map ImmField.imm16 rfl
  | imm8 b => exact (reads_fetch8 b).map ImmField.imm8 rfl

/-- No displacement byte is fetched where the operand extractor answers at once (R61). -/
theorem Reads.noField {α : Type} {x : Except DecodeError α} {a : α} (h : x = .ok a) : Reads buf q x [[]] a :=
  .fetch (fun _ => h) (fun hlen hq => absurd hlen (Nat.not_lt.mpr hq))

/-- The operand extractor is one fetch of the displacement bytes, of which there may be none (R61). -/
theorem reads_decodeRm {rm : RmOperand} (h : rm.wf = true) :
    Reads buf q (decodeRm rm.modBits rm.rmBits buf q) [rm.dispBytes] (rm, rm.dispLength) := by
  cases rm with
  | reg r => exact .noField ((decodeRm_mod3 r.bits buf q).trans (by rw [Reg.ofBits_bits]; rfl))
  | direct a => exact (reads_fetch16 a).map (fun a => (RmOperand.direct a, 2)) rfl
  | mem0 b =>
    have hbase : b.bits ≠ 6#3 := by
      rintro h6
      obtain rfl : b = .bp := by rw [← EaBase.ofBits_bits b, h6]; rfl
      cases h
    exact .noField ((decodeRm_mod0_base buf q hbase).trans (by rw [EaBase.ofBits_bits]; rfl))
  | mem8 b d =>
    exact (reads_fetch8 d).map (fun d => (RmOperand.mem8 (.ofBits b.bits) d, 1)) (by rw [EaBase.ofBits_bits]; rfl)
  | mem16 b d =>
    exact (reads_fetch16 d).map (fun d => (RmOperand.mem16 (.ofBits b.bits) d, 2)) (by rw [EaBase.ofBits_bits]; rfl)

end Fetches

/-! ### The families -/

/-- The decoder reads `i` field by field, at every offset of every buffer. -/
def DecodedByField (i : Instr) : Prop :=
  ∃ fields : List (List Byte), fields.flatten = encode i ∧ fields.map List.length = fieldLengths i ∧
    ∀ (buf : List Byte) (p : Nat), Reads buf p (decode buf p) fields (i, i.len)

/-- The opcode byte is a field of its own; the layout its entry selects reads the others (R59). -/
theorem decodedByField_of_family {i : Instr} {sel : Selector} {op : Byte} {rest : List (List Byte)}
    (hsel : lookup op = some sel) (henc : encode i = op :: rest.flatten)
    (hlen : fieldLengths i = 1 :: rest.map List.length)
    (hread : ∀ (buf : List Byte) (p : Nat), Reads buf (p + 1) (decodeFamily sel op buf p) rest (i, i.len)) :
    DecodedByField i := by
  refine ⟨[op] :: rest, henc.symm, hlen.symm, fun buf p => (reads_fetch8 op).bind rfl ?_⟩
  simp only [hsel]
  exact hread buf p

theorem decodedByField_rm (k : RmKind) (d : Dir) (w : Width) (reg : Reg) {rm : RmOperand} (h : rm.wf = true) :
    DecodedByField (k.instr d w reg rm) := by
  refine decodedByField_of_family (lookup_rm k d w) (rest := [[rm.modBits ++ reg.bits ++ rm.rmBits], rm.dispBytes])
    ?bytes ?lengths fun buf p => ?reads
  case bytes => simp [encode_rmInstr, modRmBytes_eq]
  case lengths => obtain _ | _ | _ | _ := k <;> simp [RmKind.instr, fieldLengths]
  case reads =>
    refine (reads_fetch8 _).bind rfl ?_
    rw [modField_join, rmField_join, regField_join, Reg.ofBits_bits, Dir.ofBit_getElem,
      Width.ofBit_getElem (k.opcode ++ d.bit), RmKind.len_instr]
    exact (reads_decodeRm h).map (fun r => (k.instr d w reg r.1, 2 + r.2)) rfl

theorem decodedByField_movIm {w : Width} (ignored : BitVec 3) {rm : RmOperand} {imm : ImmField} (hrm : rm.wf = true)
    (himm : imm.wf (immWide false w) = true) : DecodedByField (.movIm w ignored rm imm) := by
  refine decodedByField_of_family (lookup_movIm w)
    (rest := [[rm.modBits ++ ignored ++ rm.rmBits], rm.dispBytes, imm.bytes]) ?bytes ?lengths fun buf p => ?reads
  case bytes => simp [encode, modRmBytes_eq]
  case lengths => simp [fieldLengths, imm.bytes_length _ _ himm]
  case reads =>
    refine (reads_fetch8 _).bind rfl ?_
    rw [modField_join, rmField_join, regField_join, Width.ofBit_getElem]
    exact (reads_decodeRm hrm).bind (by rw [RmOperand.dispBytes_length]; rfl) ((reads_fetchImm himm).map _ rfl)

theorem decodedByField_aluIm (op : AluOp) {s : Bool} {w : Width} {rm : RmOperand} {imm : ImmField} (hrm : rm.wf = true)
    (himm : imm.wf (immWide s w) = true) : DecodedByField (op.imInstr s w rm imm) := by
  refine decodedByField_of_family (lookup_aluIm s w)
    (rest := [[rm.modBits ++ op.field ++ rm.rmBits], rm.dispBytes, imm.bytes]) ?bytes ?lengths fun buf p => ?reads
  case bytes => simp [encode_imInstr, modRmBytes_eq]
  case lengths => cases op <;> simp [AluOp.imInstr, fieldLengths, imm.bytes_length _ _ himm]
  case reads =>
    refine (reads_fetch8 _).bind rfl ?_
    rw [modField_join, rmField_join, regField_join, secondary_field, signBit_getElem,
      Width.ofBit_getElem (0b100000#6 ++ BitVec.ofBool s), AluOp.len_imInstr]
    exact (reads_decodeRm hrm).bind (by rw [RmOperand.dispBytes_length]; rfl) ((reads_fetchImm himm).map _ rfl)

theorem decodedByField_movAccMem (w : Width) (a : Word) : DecodedByField (.movAccMem w a) := by
  refine decodedByField_of_family (lookup_movAccMem w) (rest := [wordBytes a]) (by simp [encode]) rfl fun buf p => ?reads
  case reads => exact (reads_fetch16 a).map _ (by rw [Width.ofBit_getElem]; rfl)

theorem decodedByField_movMemAcc (w : Width) (a : Word) : DecodedByField (.movMemAcc w a) := by
  refine decodedByField_of_family (lookup_movMemAcc w) (rest := [wordBytes a]) (by simp [encode]) rfl fun buf p => ?reads
  case reads => exact (reads_fetch16 a).map _ (by rw [Width.ofBit_getElem]; rfl)

theorem decodedByField_aluAcc (op : AluOp) {w : Width} {imm : ImmField} (h : imm.wf (immWide false w) = true) :
    DecodedByField (op.accInstr w imm) := by
  refine decodedByField_of_family (lookup_aluAcc op w) (rest := [imm.bytes]) (by simp [encode_accInstr]) ?lengths
    fun buf p => ?reads
  case lengths => cases op <;> simp [AluOp.accInstr, fieldLengths, imm.bytes_length _ _ h]
  case reads =>
    rw [decodeFamily, decodeAluAcc, Width.ofBit_getElem, AluOp.len_accInstr]
    exact (reads_fetchImm h).map _ rfl

theorem decodedByField_movRegImm {w : Width} (reg : Reg) {imm : ImmField} (h : imm.wf (immWide false w) = true) :
    DecodedByField (.movRegImm w reg imm) := by
  refine decodedByField_of_family (lookup_movRegImm w reg) (rest := [imm.bytes]) (by simp [encode]) ?lengths
    fun buf p => ?reads
  case lengths => simp [fieldLengths, imm.bytes_length _ _ h]
  case reads =>
    rw [decodeFamily, decodeMovRegImm, Width.ofBit_getElem_regImm, rmField_regImm, Reg.ofBits_bits]
    exact (reads_fetchImm h).map _ rfl

theorem decodedByField_jump (j : Jump) (d : Byte) : DecodedByField (j.instr d) := by
  refine decodedByField_of_family (lookup_jump j) (rest := [[d]]) (by simp [encode_jump]) ?lengths fun buf p => ?reads
  case lengths => cases j <;> rfl
  case reads => exact (reads_fetch8 d).map _ (by rw [Jump.len_instr])

/-- Every well-formed instruction is read field by field. -/
theorem decodedByField {i : Instr} (h : i.wf = true) : DecodedByField i := by
  cases i.family with
  | rm k d w reg rm => exact decodedByField_rm k d w reg (wf_rmInstr .. ▸ h)
  | movIm w ignored rm imm =>
    obtain ⟨hrm, himm⟩ := Bool.and_eq_true_iff.mp h
    exact decodedByField_movIm ignored hrm himm
  | aluIm op s w rm imm =>
    obtain ⟨hrm, himm⟩ := Bool.and_eq_true_iff.mp (wf_imInstr .. ▸ h)
    exact decodedByField_aluIm op hrm himm
  | movAccMem w a => exact decodedByField_movAccMem w a
  | movMemAcc w a => exact decodedByField_movMemAcc w a
  | aluAcc op w imm => exact decodedByField_aluAcc op (wf_accInstr .. ▸ h)
  | movRegImm w reg imm => exact decodedByField_movRegImm reg h
  | jump j d => exact decodedByField_jump j d

/-! ### Where the encoding stands, and where it is cut -/

theorem encode_length {i : Instr} (h : i.wf = true) : (encode i).length = i.len := by
  obtain ⟨fields, hbytes, hlens, -⟩ := decodedByField h
  rw [← hbytes, List.length_flatten, hlens, Machine.fieldLengths_sum]

theorem decode_of_standsAt {i : Instr} {buf : List Byte} {p : Nat} (h : i.wf = true) (hi : StandsAt (encode i) buf p) :
    decode buf p = .ok (i, i.len) := by
  obtain ⟨fields, hbytes, -, hread⟩ := decodedByField h
  exact (hread buf p).full (hbytes ▸ hi)

/-- Settles O39: an encoding between two byte lists stands at its offset, so every field is fetched. -/
theorem decodeOfEncode : Obligations.DecodeOfEncode := fun i before after h =>
  decode_of_standsAt h (standsAt_past before (encode i) after)

/-- Settles O43: the fields before the cut are fetched, and the fetch of the cut field is the one that fails. -/
theorem truncatedInstructionIsOutOfBounds : Obligations.TruncatedInstructionIsOutOfBounds := by
  intro i before k h hk
  obtain ⟨fields, hbytes, hlens, hread⟩ := decodedByField h
  rw [← hlens]
  refine (hread _ _).short k ?inside ?ends ?stands
  case inside => rwa [hbytes, encode_length h]
  case ends => rw [List.length_append, List.length_take, encode_length h, Nat.min_eq_left hk.le]
  case stands => simpa [hbytes] using standsAt_past before ((encode i).take k) []

end Sys2Proof
end

section
/-! PROOFS. What a successful decode read (30_encoding.md R59 to R66): a well-formed instruction whose encoding stands at the
offset. With the field-by-field reading this makes decoder and encoder inverse, on one instruction, on whole buffers
(40_datapath.md R92) and at the instruction pointer (R90). -/

namespace Sys2Proof

/-! ### What the fetches read -/

section Fetches

variable {buf : List Byte} {q n : Nat}

theorem standsAt_of_fetch8 {b : Byte} (h : fetch8 buf q = .ok b) : StandsAt [b] buf q :=
  standsAt_singleton.mpr (fetch8_ok.mp h)

theorem standsAt_of_fetch16 {v : Word} (h : fetch16 buf q = .ok v) : StandsAt (wordBytes v) buf q := by
  obtain ⟨low, high, hlow, hhigh, rfl⟩ := fetch16_ok.mp h
  exact standsAt_wordBytes.mpr ⟨by rwa [lowByte_wordOf], by rwa [highByte_wordOf]⟩

theorem fetchImm_two {imm : ImmField} (h : fetchImm 2 buf q = .ok imm) : ∃ v, imm = .imm16 v ∧ StandsAt imm.bytes buf q := by
  obtain ⟨v, hv, h⟩ := bind_ok.mp h
  cases h
  exact ⟨v, rfl, standsAt_of_fetch16 hv⟩

theorem fetchImm_one {imm : ImmField} (h : fetchImm 1 buf q = .ok imm) : ∃ b, imm = .imm8 b ∧ StandsAt imm.bytes buf q := by
  obtain ⟨b, hb, h⟩ := bind_ok.mp h
  cases h
  exact ⟨b, rfl, standsAt_of_fetch8 hb⟩

/-- The immediate read has as many bytes as `W` and `S` dictate (R64). -/
theorem fetchImm_sound {s : Bool} {w : Width} {imm : ImmField} (h : fetchImm (immLength s w) buf q = .ok imm) :
    imm.wf (immWide s w) = true ∧ StandsAt imm.bytes buf q := by
  cases w with
  | byte =>
    obtain ⟨b, rfl, hb⟩ := fetchImm_one h
    exact ⟨rfl, hb⟩
  | word =>
    cases s with
    | true =>
      obtain ⟨b, rfl, hb⟩ := fetchImm_one h
      exact ⟨rfl, hb⟩
    | false =>
      obtain ⟨v, rfl, hv⟩ := fetchImm_two h
      exact ⟨rfl, hv⟩

theorem RmOperand.wf_mem0_ofBits {rm : BitVec 3} (h : rm ≠ 6#3) : (RmOperand.mem0 (.ofBits rm)).wf = true := by
  revert rm
  decide

/-- The operand read is well-formed, its fields are the given ones and its bytes stand at the offset (R61). -/
theorem decodeRm_sound {mod : BitVec 2} {rm : BitVec 3} {o : RmOperand} (h : decodeRm mod rm buf q = .ok (o, n)) :
    o.wf = true ∧ o.modBits = mod ∧ o.rmBits = rm ∧ StandsAt o.dispBytes buf q := by
  have modes : ∀ m : BitVec 2, m = 0#2 ∨ m = 1#2 ∨ m = 2#2 ∨ m = 3#2 := by decide
  obtain rfl | rfl | rfl | rfl := modes mod
  · by_cases hrm : rm = 6#3
    · subst hrm
      obtain ⟨a, ha, h⟩ := bind_ok.mp (decodeRm_mod0_direct .. ▸ h)
      cases h
      exact ⟨rfl, rfl, rfl, standsAt_of_fetch16 ha⟩
    · rw [decodeRm_mod0_base _ _ hrm] at h
      cases h
      exact ⟨RmOperand.wf_mem0_ofBits hrm, rfl, EaBase.bits_ofBits rm, standsAt_nil⟩
  · obtain ⟨d, hd, h⟩ := bind_ok.mp (decodeRm_mod1 .. ▸ h)
    cases h
    exact ⟨rfl, rfl, EaBase.bits_ofBits rm, standsAt_of_fetch8 hd⟩
  · obtain ⟨d, hd, h⟩ := bind_ok.mp (decodeRm_mod2 .. ▸ h)
    cases h
    exact ⟨rfl, rfl, EaBase.bits_ofBits rm, standsAt_of_fetch16 hd⟩
  · cases h
    exact ⟨rfl, rfl, Reg.bits_ofBits rm, standsAt_nil⟩

/-- A mode-reg-rm byte and the operand extracted from its fields are the bytes the encoder writes for them. -/
theorem modRm_sound {m : Byte} {o : RmOperand} (hm : fetch8 buf q = .ok m)
    (h : decodeRm (modField m) (rmField m) buf (q + 1) = .ok (o, n)) :
    o.wf = true ∧ StandsAt (modRmBytes (regField m) o) buf q := by
  obtain ⟨hwf, hmod, hrm, hdisp⟩ := decodeRm_sound h
  rw [modRmBytes_eq, hmod, hrm, modRm_join, standsAt_cons]
  exact ⟨hwf, fetch8_ok.mp hm, hdisp⟩

/-- The same with an immediate after the displacement. -/
theorem modRmImm_sound {m : Byte} {o : RmOperand} {s : Bool} {w : Width} {imm : ImmField} (hm : fetch8 buf q = .ok m)
    (h : decodeRm (modField m) (rmField m) buf (q + 1) = .ok (o, n))
    (himm : fetchImm (immLength s w) buf (q + 1 + n) = .ok imm) :
    (o.wf && imm.wf (immWide s w)) = true ∧ StandsAt (modRmBytes (regField m) o ++ imm.bytes) buf q := by
  obtain ⟨hwf, hbytes⟩ := modRm_sound hm h
  obtain ⟨hiwf, himm⟩ := fetchImm_sound himm
  rw [decodeRm_consumed h] at himm
  refine ⟨by rw [hwf, hiwf]; rfl, standsAt_append.mpr ⟨hbytes, ?_⟩⟩
  rwa [modRmBytes_length, ← Nat.add_assoc]

end Fetches

/-! ### What a decode read -/

section Sound

variable {op : Byte} {buf : List Byte} {p n : Nat} {i : Instr}

/-- After an opcode byte its selector gave, a successful layout is a well-formed instruction, whose bytes after that of the
selector stand after the opcode byte. -/
theorem decodeFamily_sound {sel : Selector} (h : decodeFamily sel op buf p = .ok (i, n)) :
    i.wf = true ∧ ∃ rest, encode i = sel.opcode op :: rest ∧ StandsAt rest buf (p + 1) := by
  cases sel with
  | rm k =>
    obtain ⟨m, hm, h⟩ := bind_ok.mp h
    obtain ⟨⟨rm, disp⟩, hrm, h⟩ := bind_ok.mp h
    cases h
    obtain ⟨hwf, hbytes⟩ := modRm_sound hm hrm
    exact ⟨wf_rmInstr .. ▸ hwf, _, by rw [encode_rmInstr, Reg.bits_ofBits]; rfl, hbytes⟩
  | movIm =>
    obtain ⟨m, hm, h⟩ := bind_ok.mp h
    obtain ⟨⟨rm, disp⟩, hrm, h⟩ := bind_ok.mp h
    obtain ⟨imm, himm, h⟩ := bind_ok.mp h
    cases h
    obtain ⟨hwf, hbytes⟩ := modRmImm_sound hm hrm himm
    exact ⟨hwf, _, rfl, hbytes⟩
  | aluIm =>
    obtain ⟨m, hm, h⟩ := bind_ok.mp h
    cases halu : secondary (regField m) with
    | none => simp [halu] at h
    | some alu =>
      simp only [halu] at h
      obtain ⟨⟨rm, disp⟩, hrm, h⟩ := bind_ok.mp h
      obtain ⟨imm, himm, h⟩ := bind_ok.mp h
      cases h
      obtain ⟨hwf, hbytes⟩ := modRmImm_sound hm hrm himm
      exact ⟨wf_imInstr .. ▸ hwf, _, by rw [encode_imInstr, field_of_secondary halu]; rfl, hbytes⟩
  | movAccMem | movMemAcc =>
    obtain ⟨a, ha, h⟩ := bind_ok.mp h
    cases h
    exact ⟨rfl, _, rfl, standsAt_of_fetch16 ha⟩
  | aluAcc alu =>
    obtain ⟨imm, himm, h⟩ := bind_ok.mp h
    cases h
    obtain ⟨hwf, hbytes⟩ := fetchImm_sound himm
    exact ⟨wf_accInstr .. ▸ hwf, _, encode_accInstr .., hbytes⟩
  | movRegImm =>
    obtain ⟨imm, himm, h⟩ := bind_ok.mp h
    cases h
    obtain ⟨hwf, hbytes⟩ := fetchImm_sound himm
    exact ⟨hwf, _, rfl, hbytes⟩
  | jump j =>
    obtain ⟨d, hd, h⟩ := bind_ok.mp h
    cases h
    exact ⟨wf_jump .., _, encode_jump .., standsAt_of_fetch8 hd⟩

/-- Decoding and encoding in one equivalence: a decode answers exactly the well-formed instruction whose encoding stands at
the offset, with its length. -/
theorem decode_iff : decode buf p = .ok (i, n) ↔ i.wf = true ∧ n = i.len ∧ StandsAt (encode i) buf p := by
  constructor
  · intro h
    obtain ⟨op, sel, hop, hsel, hfamily⟩ := decode_ok.mp h
    obtain ⟨hwf, rest, henc, hrest⟩ := decodeFamily_sound hfamily
    refine ⟨hwf, decode_consumed h, ?_⟩
    rw [henc, opcode_of_lookup hsel]
    exact standsAt_cons.mpr ⟨hop, hrest⟩
  · rintro ⟨hwf, rfl, hi⟩
    exact decode_of_standsAt hwf hi

theorem decode_offset_lt (h : decode buf p = .ok (i, n)) : p < buf.length := by
  obtain ⟨op, sel, hop, -, -⟩ := decode_ok.mp h
  exact (List.getElem?_eq_some_iff.mp hop).1

theorem decode_end_le (h : decode buf p = .ok (i, n)) : p + n ≤ buf.length := by
  obtain ⟨hwf, rfl, hi⟩ := decode_iff.mp h
  rw [← encode_length hwf]
  exact hi.end_le (decode_offset_lt h).le

theorem encode_of_decode (h : decode buf p = .ok (i, n)) : encode i = (buf.drop p).take n := by
  obtain ⟨hwf, rfl, hi⟩ := decode_iff.mp h
  rw [← encode_length hwf]
  exact List.prefix_iff_eq_take.mp hi

end Sound

/-- Settles O40: what a decode read stands in the buffer, so it is the bytes consumed and ends inside. -/
theorem encodeOfDecode : Obligations.EncodeOfDecode := fun _ _ _ _ h =>
  ⟨(decode_iff.mp h).1, encode_of_decode h, decode_end_le h⟩

/-- Settles O42: the encoding that stands in one buffer stands in the other. -/
theorem decoderReadsOnlyTheInstruction : Obligations.DecoderReadsOnlyTheInstruction := by
  intro buf buf' p i n h same
  obtain ⟨hwf, rfl, hi⟩ := decode_iff.mp h
  refine decode_iff.mpr ⟨hwf, rfl, standsAt_iff_getElem?.mpr fun k hk => ?_⟩
  rw [same k (encode_length hwf ▸ hk)]
  exact standsAt_iff_getElem?.mp hi k hk

/-! ### Whole buffers -/

namespace Machine

variable {buf : List Byte} {p : Nat} {ys ys' : List (Instr × Nat)} {e e' : Option DecodeError}

/-- A sweep is determined by where it starts. -/
theorem Sweeps.unique (h : Sweeps buf p ys e) (h' : Sweeps buf p ys' e') : ys = ys' ∧ e = e' := by
  induction h generalizing ys' with
  | done hp =>
    cases h' with
    | done => exact ⟨rfl, rfl⟩
    | failed hp' => exact absurd hp' (Nat.not_lt.mpr hp)
    | yields hp' => exact absurd hp' (Nat.not_lt.mpr hp)
  | failed hp hd =>
    cases h' with
    | done hp' => exact absurd hp (Nat.not_lt.mpr hp')
    | failed _ hd' => simpa using hd.symm.trans hd'
    | yields _ hd' => exact nomatch hd.symm.trans hd'
  | yields hp hd _ ih =>
    cases h' with
    | done hp' => exact absurd hp (Nat.not_lt.mpr hp')
    | failed _ hd' => exact nomatch hd.symm.trans hd'
    | yields _ hd' hr' =>
      cases hd.symm.trans hd'
      obtain ⟨rfl, rfl⟩ := ih hr'
      exact ⟨rfl, rfl⟩

/-- What a sweep without error yields encodes to the rest of the buffer. -/
theorem Sweeps.encode_eq_drop (h : Sweeps buf p ys none) : ys.flatMap (fun y => encode y.1) = buf.drop p := by
  generalize he : (none : Option DecodeError) = e at h
  induction h with
  | done hp => rw [List.drop_eq_nil_of_le hp, List.flatMap_nil]
  | failed => cases he
  | yields _ hd _ ih => rw [List.flatMap_cons, ih he, encode_of_decode hd, ← List.drop_drop, List.take_append_drop]

/-- Where the encodings of well-formed instructions are the rest of the buffer, the sweep yields them. -/
theorem Sweeps.of_encodings {is : List Instr} (h : ∀ i ∈ is, i.wf = true) (hp : buf.drop p = is.flatMap encode) :
    Sweeps buf p (is.map fun i => (i, i.len)) none := by
  induction is generalizing p with
  | nil => exact .done (List.drop_eq_nil_iff.mp hp)
  | cons i is ih =>
    obtain ⟨hwf, hrest⟩ := List.forall_mem_cons.mp h
    rw [List.flatMap_cons] at hp
    have hd : decode buf p = .ok (i, i.len) := decode_of_standsAt hwf ⟨_, hp.symm⟩
    refine .yields (decode_offset_lt hd) hd (ih hrest ?_)
    rw [← List.drop_drop, hp, ← encode_length hwf, List.drop_left]

/-- Settles O50: the pass is the sweep; its yields encode to the whole buffer, and the yields of encodings are determined. -/
theorem decodeAllReassembles : Obligations.DecodeAllReassembles := by
  refine ⟨fun buf h => ?assembles, fun is h => ?yields⟩
  case assembles =>
    have sweep := decodeAllIsTheSweep buf
    rw [h] at sweep
    exact sweep.encode_eq_drop
  case yields =>
    obtain ⟨hys, he⟩ := (decodeAllIsTheSweep (is.flatMap encode)).unique (Sweeps.of_encodings h rfl)
    exact Prod.ext hys he

/-! ### At the instruction pointer -/

/-- Settles O4: a buffer that decodes at `ip` reaches beyond it, so the step decodes there. -/
theorem stepRunsTheDecodedInstruction : Obligations.StepRunsTheDecodedInstruction := fun _ _ _ h =>
  step_decoded (decode_offset_lt h) h

/-- Settles O5: the encoding decodes where it stands, and the step runs what decodes at `ip`. -/
theorem stepRunsTheEncodedInstruction : Obligations.StepRunsTheEncodedInstruction := by
  intro s i before after hwf hbuf hip
  have hi : StandsAt (encode i) s.buf s.ip.toNat := by
    rw [hbuf, hip]
    exact standsAt_past before (encode i) after
  exact stepRunsTheDecodedInstruction s i i.len (decode_of_standsAt hwf hi)

/-- Settles O8: an instruction ends inside the buffer, and the buffer ends before 2^16. -/
theorem sequentialAdvanceNeverWraps : Obligations.SequentialAdvanceNeverWraps := by
  intro s i n hbuf h
  have inside := decode_end_le h
  refine ⟨?_, inside⟩
  have advanced : AdvancedBy n s (advance n s) := advancedBy_of_ip (advance_ip s n)
  rwa [AdvancedBy, Nat.mod_eq_of_lt (by omega)] at advanced

end Machine

end Sys2Proof
end

section
/-! PROOFS. How a decode fails (30_encoding.md R60, R68, R71; 60_exceptions.md R201 to R203), the pattern list over all first
bytes, and the steps that run no instruction (40_datapath.md R90). -/

namespace Sys2Proof

/-! ### The pattern list -/

/-- The map of R67 and the pattern list recognise the same bytes: all 256. -/
theorem isSome_lookup : ∀ op : Byte, (lookup op).isSome = Machine.recognised op := by decide

/-- The bytes whose second byte is consulted (R68): all 256. -/
theorem lookup_eq_aluIm : ∀ op : Byte, lookup op = some .aluIm ↔ 0x80 ≤ op.toNat ∧ op.toNat ≤ 0x83 := by decide

/-- The second bytes that are not recognised (R71): all 256. -/
theorem secondary_eq_none : ∀ m : Byte,
    secondary (regField m) = none ↔ m.toNat / 8 % 8 ≠ 0 ∧ m.toNat / 8 % 8 ≠ 5 ∧ m.toNat / 8 % 8 ≠ 7 := by decide

/-- Settles O46: the overlap by evaluation over the 256 first bytes, the count by that of the recognised bytes. -/
theorem opcodePatternsDoNotOverlap : Obligations.OpcodePatternsDoNotOverlap := by
  have recognisedCount : ((List.range 256).filter fun n => Machine.recognised (BitVec.ofNat 8 n)).length = 68 := by decide
  refine ⟨by decide, ?_⟩
  simpa only [isSome_lookup] using recognisedCount

/-- Settles O47: six closed evaluations of the decoder, one for each family's layout. -/
theorem writtenWordsDecode : Obligations.WrittenWordsDecode :=
  ⟨by decide, by decide, by decide, by decide, by decide, by decide⟩

/-! ### How a decode fails -/

/-- The only failure of `x` is the end of the buffer. -/
def FailsOnlyAtEnd {α : Type} (x : Except DecodeError α) : Prop := ∀ e, x = .error e → ∃ q, e = .outOfBounds q

section FailsOnlyAtEnd

variable {α β : Type} {buf : List Byte} {q : Nat}

theorem failsOnlyAtEnd_ok (a : α) : FailsOnlyAtEnd (.ok a) := fun _ h => nomatch h

theorem FailsOnlyAtEnd.bind {x : Except DecodeError α} {f : α → Except DecodeError β} (hx : FailsOnlyAtEnd x)
    (hf : ∀ a, FailsOnlyAtEnd (f a)) : FailsOnlyAtEnd (x >>= f) := by
  cases x with
  | error e =>
    intro e' h
    cases h
    exact hx e rfl
  | ok a => exact hf a

/-- A failing result computed from `x` is a failure of `x`. -/
theorem FailsOnlyAtEnd.map {x : Except DecodeError α} (hx : FailsOnlyAtEnd x) (g : α → β) :
    FailsOnlyAtEnd (x >>= fun a => .ok (g a)) := hx.bind fun a => failsOnlyAtEnd_ok (g a)

theorem failsOnlyAtEnd_fetch8 : FailsOnlyAtEnd (fetch8 buf q) := fun _ h => ⟨q, (fetch8_error.mp h).2⟩

theorem failsOnlyAtEnd_fetch16 : FailsOnlyAtEnd (fetch16 buf q) := fun _ h => ⟨q, (fetch16_error.mp h).2⟩

theorem failsOnlyAtEnd_fetchImm (s : Bool) (w : Width) : FailsOnlyAtEnd (fetchImm (immLength s w) buf q) := by
  cases w with
  | byte => exact failsOnlyAtEnd_fetch8.map _
  | word =>
    cases s with
    | true => exact failsOnlyAtEnd_fetch8.map _
    | false => exact failsOnlyAtEnd_fetch16.map _

theorem failsOnlyAtEnd_decodeRm (mod : BitVec 2) (rm : BitVec 3) : FailsOnlyAtEnd (decodeRm mod rm buf q) := by
  have modes : ∀ m : BitVec 2, m = 0#2 ∨ m = 1#2 ∨ m = 2#2 ∨ m = 3#2 := by decide
  obtain rfl | rfl | rfl | rfl := modes mod
  · by_cases hrm : rm = 6#3
    · rw [hrm, decodeRm_mod0_direct]
      exact failsOnlyAtEnd_fetch16.map _
    · rw [decodeRm_mod0_base _ _ hrm]
      exact failsOnlyAtEnd_ok _
  · rw [decodeRm_mod1]
    exact failsOnlyAtEnd_fetch8.map _
  · rw [decodeRm_mod2]
    exact failsOnlyAtEnd_fetch16.map _
  · exact failsOnlyAtEnd_ok _

end FailsOnlyAtEnd

section Errors

variable {buf : List Byte} {p : Nat} {op m : Byte} {e : DecodeError}

theorem decodeFamily_aluIm (hm : buf[p + 1]? = some m) (h : secondary (regField m) = none) :
    decodeFamily .aluIm op buf p = .error (.secondaryField op p m) :=
  (bind_of_ok (fetch8_ok.mpr hm)).trans (by rw [h])

/-- Everything a layout that fails can be: cut off by the end of the buffer, or an ALU immediate whose secondary field is not
recognised (R71). -/
theorem decodeFamily_error {sel : Selector} (h : decodeFamily sel op buf p = .error e) :
    (∃ q, e = .outOfBounds q) ∨
    sel = .aluIm ∧ ∃ m, buf[p + 1]? = some m ∧ secondary (regField m) = none ∧ e = .secondaryField op p m := by
  cases sel with
  | rm k =>
    exact .inl (failsOnlyAtEnd_fetch8.bind (fun m => (failsOnlyAtEnd_decodeRm _ _).map _) e h)
  | movIm =>
    exact .inl (failsOnlyAtEnd_fetch8.bind
      (fun m => (failsOnlyAtEnd_decodeRm _ _).bind fun r => (failsOnlyAtEnd_fetchImm _ _).map _) e h)
  | aluIm =>
    cases hm : fetch8 buf (p + 1) with
    | error e' =>
      obtain rfl : e' = e := Except.error.inj ((bind_of_error hm).symm.trans h)
      exact .inl (failsOnlyAtEnd_fetch8 _ hm)
    | ok m =>
      have h := (bind_of_ok hm).symm.trans h
      cases halu : secondary (regField m) with
      | none =>
        have hm := fetch8_ok.mp hm
        exact .inr ⟨rfl, m, hm, halu, by simpa [halu, eq_comm] using h⟩
      | some alu =>
        simp only [halu] at h
        exact .inl ((failsOnlyAtEnd_decodeRm _ _).bind (fun r => (failsOnlyAtEnd_fetchImm _ _).map _) e h)
  | movAccMem | movMemAcc => exact .inl (failsOnlyAtEnd_fetch16.map _ e h)
  | aluAcc alu => exact .inl ((failsOnlyAtEnd_fetchImm _ _).map _ e h)
  | movRegImm => exact .inl ((failsOnlyAtEnd_fetchImm _ _).map _ e h)
  | jump j => exact .inl (failsOnlyAtEnd_fetch8.map _ e h)

theorem decode_of_lookup_none (hop : buf[p]? = some op) (hsel : lookup op = none) :
    decode buf p = .error (.noPattern op p) := by
  unfold decode
  rw [bind_of_ok (fetch8_ok.mpr hop), hsel]

end Errors

/-- Settles O44: an unrecognised byte matches no entry, and no layout raises `NoPattern`. -/
theorem unknownFirstByteFails : Obligations.UnknownFirstByteFails := by
  intro buf p op hop
  rw [← isSome_lookup op]
  cases hsel : lookup op with
  | none => exact ⟨fun _ => decode_of_lookup_none hop hsel, nofun⟩
  | some sel =>
    refine ⟨nofun, fun _ b q h => ?_⟩
    rw [decode_of_lookup hop hsel] at h
    obtain ⟨_, he⟩ | ⟨_, _, _, _, he⟩ := decodeFamily_error h
    · cases he
    · cases he

/-- Settles O45: only the ALU immediate raises `SecondaryField`, right after its second byte. -/
theorem unrecognisedSecondaryFieldFails : Obligations.UnrecognisedSecondaryFieldFails := by
  intro buf p op m b q
  constructor
  · rintro ⟨h, hb⟩
    cases hsel : lookup b with
    | none => exact nomatch (decode_of_lookup_none hb hsel).symm.trans h
    | some sel =>
      rw [decode_of_lookup hb hsel] at h
      obtain ⟨_, he⟩ | ⟨rfl, m', hm, hnone, he⟩ := decodeFamily_error h
      · cases he
      · cases he
        obtain ⟨hlow, hhigh⟩ := (lookup_eq_aluIm _).mp hsel
        exact ⟨rfl, rfl, hb, hlow, hhigh, hm, (secondary_eq_none m).mp hnone⟩
  · rintro ⟨rfl, rfl, hop, hlow, hhigh, hm, hreg⟩
    have hsel := (lookup_eq_aluIm b).mpr ⟨hlow, hhigh⟩
    exact ⟨(decode_of_lookup hop hsel).trans (decodeFamily_aluIm hm ((secondary_eq_none m).mpr hreg)), hop⟩

/-! ### Steps that run no instruction -/

namespace Machine

variable {s : State}

theorem step_decode_error {e : DecodeError} (hp : s.ip.toNat < s.buf.length) (h : decode s.buf s.ip.toNat = .error e) :
    step s = .fault (.ofDecode e) := by
  rw [step, fetchDecode, if_neg hp.ne, if_neg hp.not_gt, h]

/-- Settles O6: the halt test, the fetch bound and the decode, in the order of R90. -/
theorem stepStopsWithoutAnInstruction : Obligations.StepStopsWithoutAnInstruction := fun _ =>
  ⟨step_at_end, step_past_end, fun hp =>
    ⟨fun _ _ => step_decode_error hp, fun _ _ _ => step_decode_error hp, fun _ => step_decode_error hp⟩⟩

theorem Fault.ofDecode_ne_endOfBuffer (e : DecodeError) : Fault.ofDecode e ≠ .endOfBuffer := by
  cases e <;> exact nofun

/-- No instruction halts: the fault of an instruction is that of a data access (R110). -/
theorem exec_ne_halt (i : Instr) : exec i s ≠ .fault .endOfBuffer := by
  intro h
  obtain ⟨-, m, -, hm⟩ := exec_fault h
  cases hm.outOfRange

/-- Settles O7: past the end and where decoding fails the fault has another name, and no instruction raises the halt. -/
theorem haltsExactlyAtEndOfBuffer : Obligations.HaltsExactlyAtEndOfBuffer := by
  refine fun s => ⟨fun h => ?_, step_at_end⟩
  obtain hlt | heq | hgt := Nat.lt_trichotomy s.ip.toNat s.buf.length
  · cases hd : decode s.buf s.ip.toNat with
    | error e =>
      rw [step_decode_error hlt hd] at h
      exact absurd (Host.Outcome.fault.inj h) (Fault.ofDecode_ne_endOfBuffer e)
    | ok r =>
      rw [step_decoded (i := r.1) (n := r.2) hlt hd] at h
      exact absurd h (exec_ne_halt r.1)
  · exact heq
  · rw [step_past_end hgt] at h
    cases h

end Machine

end Sys2Proof
end

section
/-! PROOFS. What the executor runs for each of the 34 instructions, in four forms (40_datapath.md R91, R106): a `mov`, an ALU
operation, `jnz`, a handler-less mnemonic. From it: the executor over records, and where an instruction is refused or faults
(60_exceptions.md R205 to R208). -/

namespace Sys2Proof.Machine

/-! ### The four forms -/

/-- What `exec i` runs, with the operands of `i`'s record and its own length. A `mov` has at most one memory operand (R99). -/
inductive ExecForm (i : Instr) : Prop where
  | mov (dst : Place) (src : Operand) (hm : i.record.mnemonic = .mov) (ho : i.record.operands = [dst.operand, src])
      (hone : dst.operand.isMemory = false ∨ src.isMemory = false)
      (hx : ∀ s, exec i s = movTo i.record.width dst src i.len s)
  | alu (op : AluOp) (dst : Place) (src : Operand) (hm : i.record.mnemonic = AluOp.mnemonic op)
      (ho : i.record.operands = [dst.operand, src]) (hx : ∀ s, exec i s = aluTo op i.record.width dst src i.len s)
  | jnz (d : Byte) (hi : i = .jnz d)
  | handlerless (d : Word) (hm : isHandlerless i = true) (ho : i.record.operands = [.immediate d none]) (hl : i.len = 2)
      (hx : ∀ s, exec i s = noHandlerStep i.record.mnemonic s)

theorem aluAcc_eq_aluTo (op : AluOp) (w : Width) (imm : ImmField) (len : Nat) (s : State) :
    aluAcc op w imm len s = aluTo op w (.register .ax) (.immediate (imm.value false w) none) len s := by cases w <;> rfl

theorem execMovRegImm_eq_movTo (w : Width) (r : Reg) (imm : ImmField) (s : State) :
    execMovRegImm w r imm s =
      movTo w (.register r) (.immediate (imm.value false w) none) (1 + immLength false w) s := by cases w <;> rfl

theorem rm_one_memory (d : Dir) (reg : Reg) (rm : RmOperand) :
    (rmDest d reg rm).operand.isMemory = false ∨ (rmSource d reg rm).isMemory = false := by
  cases d with
  | toReg => exact .inl rfl
  | toRm => exact .inr rfl

theorem execForm (i : Instr) : ExecForm i := by
  cases i with
  | movRm d w reg rm => exact .mov _ _ rfl rfl (rm_one_memory d reg rm) fun _ => rfl
  | movIm w ignored rm imm => exact .mov _ _ rfl rfl (.inr rfl) fun _ => rfl
  | movAccMem w a => exact .mov _ _ rfl rfl (.inl rfl) (execMovAccMem_eq_movTo w a)
  | movMemAcc w a => exact .mov _ _ rfl rfl (.inr rfl) (execMovMemAcc_eq_movTo w a)
  | movRegImm w reg imm => exact .mov _ _ rfl rfl (.inl rfl) (execMovRegImm_eq_movTo w reg imm)
  | addRm d w reg rm => exact .alu .add _ _ rfl rfl fun _ => rfl
  | subRm d w reg rm => exact .alu .sub _ _ rfl rfl fun _ => rfl
  | cmpRm d w reg rm => exact .alu .cmp _ _ rfl rfl fun _ => rfl
  | addIm sx w rm imm => exact .alu .add _ _ rfl rfl fun _ => rfl
  | subIm sx w rm imm => exact .alu .sub _ _ rfl rfl fun _ => rfl
  | cmpIm sx w rm imm => exact .alu .cmp _ _ rfl rfl fun _ => rfl
  | addAcc w imm => exact .alu .add _ _ rfl rfl (aluAcc_eq_aluTo .add w imm _)
  | subAcc w imm => exact .alu .sub _ _ rfl rfl (aluAcc_eq_aluTo .sub w imm _)
  | cmpAcc w imm => exact .alu .cmp _ _ rfl rfl (aluAcc_eq_aluTo .cmp w imm _)
  | jnz d => exact .jnz d rfl
  | _ d => exact .handlerless (sext16 d) rfl rfl rfl fun _ => rfl

variable {i : Instr} {s : State}

/-! ### The executor over records -/

section Execute

variable {I : Instruction} (len : Nat) (s : State)

theorem execute_mov {dst : Place} {src : Operand} (hm : I.mnemonic = .mov) (ho : I.operands = [dst.operand, src]) :
    execute I len s = movTo I.width dst src len s := by
  obtain ⟨m, w, os, raw⟩ := I
  obtain rfl : m = .mov := hm
  obtain rfl : os = [dst.operand, src] := ho
  cases dst <;> cases w <;> rfl

/-- The operands of a register form are read as `ReadOperand` gives them (R95). -/
theorem execute_alu {op : AluOp} {dst : Place} {src : Operand} (hm : I.mnemonic = AluOp.mnemonic op)
    (ho : I.operands = [dst.operand, src]) : execute I len s = aluTo op I.width dst src len s := by
  obtain ⟨m, w, os, raw⟩ := I
  obtain rfl : m = AluOp.mnemonic op := hm
  obtain rfl : os = [dst.operand, src] := ho
  cases op <;> cases w <;> cases dst <;> cases src <;> rfl

theorem execute_handlerless {o : Operand} (hm : mnemonicClass I.mnemonic = .noHandler) (ho : I.operands = [o]) :
    execute I 2 s = noHandlerStep I.mnemonic s := by
  unfold execute noHandlerStep
  simp only [hm, ho]
  cases s.policy <;> rfl

theorem execute_jnz (d : Byte) : execute (Instr.jnz d).record 2 s = exec (.jnz d) s := by
  have hexec : exec (.jnz d) s = finish .ok (if s.zf then advance 2 s else branchBy (sext16 d) (advance 2 s)) := rfl
  have hexecute : execute (Instr.jnz d).record 2 s =
      finish .ok (if s.zf = false then branchBy (sext16 d) (advance 2 s) else advance 2 s) := rfl
  rw [hexec, hexecute]
  cases s.zf <;> rfl

end Execute

theorem mnemonicClass_of_handlerless (h : isHandlerless i = true) : mnemonicClass i.record.mnemonic = .noHandler := by
  simp only [isHandlerless, isMov, isAlu] at h
  revert h
  cases i.record.mnemonic <;> decide

/-- Settles O38: form by form, `execute` on the record runs what `exec` runs. -/
theorem execIsExecuteOfTheRecord : Obligations.ExecIsExecuteOfTheRecord := by
  intro i s
  cases execForm i with
  | mov dst src hm ho _ hx => rw [hx, execute_mov _ _ hm ho]
  | alu op dst src hm ho hx => rw [hx, execute_alu _ _ hm ho]
  | jnz d hi =>
    subst hi
    exact (execute_jnz s d).symm
  | handlerless d hm ho hl hx => rw [hx, hl, execute_handlerless _ (mnemonicClass_of_handlerless hm) ho]

/-! ### Refusals -/

theorem movTo_refused {w : Width} {dst : Place} {src : Operand} {len : Nat} {r : Refusal} :
    movTo w dst src len s = .refused r ↔ r = .byteWidthExecution ∧ w = .byte := by
  cases w with
  | byte => simp [movTo, eq_comm (a := r)]
  | word =>
    simp only [movTo]
    split
    · simp
    · split <;> simp [finish]

theorem aluTo_refused {op : AluOp} {w : Width} {dst : Place} {src : Operand} {len : Nat} {r : Refusal} :
    aluTo op w dst src len s = .refused r ↔
      r = .byteWidthExecution ∧ w = .byte ∨
      r = .aluMemoryOperand ∧ w = .word ∧ [dst.operand, src].any (·.isMemory) = true := by
  cases w with
  | byte => simp [aluTo, eq_comm (a := r)]
  | word =>
    cases dst <;> cases src <;> simp [aluTo, finish, Place.operand, Operand.isMemory, eq_comm (a := r)]

theorem noHandlerStep_refused {m : Mnemonic} {r : Refusal} :
    noHandlerStep m s = .refused r ↔ r = .noHandler m ∧ s.policy = .refuse := by
  obtain ⟨hp, h⟩ | ⟨hp, h⟩ := noHandlerStep_cases m s <;> simp [h, hp, eq_comm (a := r)]

theorem isMov_of_mov (h : i.record.mnemonic = .mov) : isMov i = true := decide_eq_true h

theorem isMov_eq_false_of_aluMnemonic {op : AluOp} (h : i.record.mnemonic = AluOp.mnemonic op) : isMov i = false := by
  cases op <;> simp [isMov, h, AluOp.mnemonic]

theorem isMov_eq_false_of_handlerless (h : isHandlerless i = true) : isMov i = false := by
  simp only [isHandlerless, Bool.and_eq_true, Bool.not_eq_true'] at h
  exact h.1.1

/-- Settles O29: each form has its own refusals, and the clauses of the other forms do not apply to it. -/
theorem executorRefusesExactly : Obligations.ExecutorRefusesExactly := by
  intro i s r
  cases execForm i with
  | mov dst src hm ho _ hx =>
    rw [hx, movTo_refused]
    simp [isMov_of_mov hm, isAlu_eq_false_of_mov hm, isHandlerless_eq_false_of_mov hm]
  | alu op dst src hm ho hx =>
    have halu := isAlu_of_aluMnemonic hm
    rw [hx, aluTo_refused]
    simp [isMov_eq_false_of_aluMnemonic hm, halu, isHandlerless_eq_false_of_alu halu, hasMemory, ho]
  | jnz d hi =>
    subst hi
    rw [exec_jnz]
    simp [show isMov (.jnz d) = false from rfl, show isAlu (.jnz d) = false from rfl,
      show isHandlerless (.jnz d) = false from rfl]
  | handlerless d hm ho hl hx =>
    rw [hx, noHandlerStep_refused]
    simp [isMov_eq_false_of_handlerless hm, isAlu_eq_false_of_handlerless hm, hm]

/-! ### Faults -/

theorem exec_isMov_of_fault {f : Fault} (h : exec i s = .fault f) : isMov i = true := isMov_of_mov (exec_fault h).1

/-- A word access at `m` is out of range (R205). -/
def WordOutOfRange (m : MemOperand) (s : State) : Prop := effectiveAddress m s < 0 ∨ 65534 < effectiveAddress m s

theorem AccessFaults.wordOutOfRange {m : MemOperand} {f : Fault} (h : AccessFaults m s f) : WordOutOfRange m s := by
  obtain hr | ⟨v, hw⟩ := h
  · exact (memRead16_error.mp hr).1
  · exact (memWrite16_error.mp hw).1

theorem readOperand_of_not_memory {o : Operand} (h : o.isMemory = false) (s : State) : ∃ v, readOperand o s = .ok v := by
  cases o with
  | register r => exact ⟨_, rfl⟩
  | immediate v size => exact ⟨_, rfl⟩
  | memory m => cases h

theorem movTo_of_read_error {dst : Place} {src : Operand} {len : Nat} {f : Fault} (h : readOperand src s = .error f) :
    movTo .word dst src len s = .fault f := by simp [movTo, h]

theorem movTo_of_write_error {dst : Place} {src : Operand} {len : Nat} {v : Word} {f : Fault}
    (hv : readOperand src s = .ok v) (h : writePlace dst v s (advance len s) = .error f) :
    movTo .word dst src len s = .fault f := by simp [movTo, hv, h]

/-- A word `mov` with one memory operand, out of range, faults there. -/
theorem movTo_fault_of_outOfRange {dst : Place} {src : Operand} {len : Nat} {m : MemOperand}
    (hone : dst.operand.isMemory = false ∨ src.isMemory = false) (hm : .memory m ∈ [dst.operand, src])
    (h : WordOutOfRange m s) :
    movTo .word dst src len s = .fault (.addressOutOfRange (effectiveAddress m s) 2) := by
  obtain hdst | hsrc : dst.operand = .memory m ∨ src = .memory m := by simpa [eq_comm] using hm
  · obtain ⟨v, hv⟩ := readOperand_of_not_memory (hone.resolve_left (by simp [hdst, Operand.isMemory])) s
    cases dst with
    | register r => cases hdst
    | memory m' =>
      obtain rfl : m' = m := by simpa [Place.operand] using hdst
      exact movTo_of_write_error hv (memWrite16_error.mpr ⟨h, rfl⟩)
  · subst hsrc
    exact movTo_of_read_error (memRead16_error.mpr ⟨h, rfl⟩)

theorem exec_width_of_fault {f : Fault} (h : exec i s = .fault f) : i.record.width = .word := by
  cases hw : i.record.width with
  | word => rfl
  | byte =>
    have refused := (executorRefusesExactly i s .byteWidthExecution).mpr (.inl ⟨rfl, .inl (exec_isMov_of_fault h), hw⟩)
    cases h.symm.trans refused

/-- Settles O31: a fault is that of a `mov`'s access; and where the one memory operand of a word `mov` is out of range, the
read or the write of it is what the `mov` comes to. -/
theorem movFaultsExactlyOutOfRange : Obligations.MovFaultsExactlyOutOfRange := by
  intro i s f
  constructor
  · intro h
    obtain ⟨hmov, m, hmem, haccess⟩ := exec_fault h
    exact ⟨isMov_of_mov hmov, exec_width_of_fault h, m, hmem, haccess.wordOutOfRange, haccess.outOfRange⟩
  · rintro ⟨hmov, hw, m, hmem, hrange, rfl⟩
    cases execForm i with
    | mov dst src _ ho hone hx =>
      rw [hx, hw]
      exact movTo_fault_of_outOfRange hone (ho ▸ hmem) hrange
    | alu op _ _ hm => simp [isMov_eq_false_of_aluMnemonic hm] at hmov
    | jnz d hi => subst hi; cases hmov
    | handlerless _ hm => simp [isMov_eq_false_of_handlerless hm] at hmov

/-! ### Without a memory operand -/

/-- The outcome with `m` as the memory of its state, where it has one. -/
def Result.withMem (m : Memory) : Result → Result
  | .next t => .next (setMem t m)
  | .fault f => .fault f
  | .refused r => .refused r

theorem movTo_withMem {w : Width} {dst : Place} {src : Operand} {len : Nat} (m : Memory)
    (hdst : dst.operand.isMemory = false) (hsrc : src.isMemory = false) :
    movTo w dst src len (setMem s m) = Result.withMem m (movTo w dst src len s) := by
  cases w with
  | byte => rfl
  | word =>
    cases dst with
    | memory m' => cases hdst
    | register r =>
      cases src with
      | memory m' => cases hsrc
      | register q => rfl
      | immediate v size => rfl

theorem aluTo_withMem (op : AluOp) {w : Width} {dst : Place} {src : Operand} {len : Nat} (m : Memory) :
    aluTo op w dst src len (setMem s m) = Result.withMem m (aluTo op w dst src len s) := by
  cases w with
  | byte => rfl
  | word => cases dst <;> cases src <;> cases op <;> rfl

theorem noHandlerStep_withMem (mn : Mnemonic) (m : Memory) :
    noHandlerStep mn (setMem s m) = Result.withMem m (noHandlerStep mn s) := by
  unfold noHandlerStep
  rw [setMem_policy]
  cases s.policy <;> rfl

/-- Without a memory operand, memory passes through an instruction untouched and unseen. -/
theorem exec_withMem (m : Memory) (h : hasMemory i = false) : exec i (setMem s m) = Result.withMem m (exec i s) := by
  cases execForm i with
  | mov dst src hm ho _ hx =>
    obtain ⟨hdst, hsrc⟩ : dst.operand.isMemory = false ∧ src.isMemory = false := by simpa [hasMemory, ho] using h
    rw [hx, hx, movTo_withMem m hdst hsrc]
  | alu op dst src hm ho hx => rw [hx, hx, aluTo_withMem]
  | jnz d hi =>
    subst hi
    rw [exec_jnz, exec_jnz]
    rfl
  | handlerless d hm ho hl hx => rw [hx, hx, noHandlerStep_withMem]

theorem exec_ne_fault_of_no_memory (h : hasMemory i = false) (f : Fault) : exec i s ≠ .fault f := by
  intro hf
  obtain ⟨-, m, hm, -⟩ := exec_fault hf
  have : hasMemory i = true := List.any_eq_true.mpr ⟨_, hm, rfl⟩
  simp [this] at h

/-- Settles O37: the outcome with another memory is the outcome with that memory put in, and a fault needs an operand. -/
theorem memoryIsInvisibleWithoutAMemoryOperand : Obligations.MemoryIsInvisibleWithoutAMemoryOperand := fun i s m h =>
  ⟨fun t ht => by rw [exec_withMem m h, ht]; rfl, exec_ne_fault_of_no_memory h,
    fun r hr => by rw [exec_withMem m h, hr]; rfl⟩

end Sys2Proof.Machine
end

section
/-! PROOFS. The primitives of the datapath (20_memory.md sections 1 and 3; 30_encoding.md sections 1 and 2; 40_datapath.md
section 2): byte and word accesses, the register file's ports, effective addresses and immediate values. -/

namespace Sys2Proof.Machine

variable {s t : State} {ea : Int}

/-! ### Words in memory -/

/-- The two bytes of a written word, and no others (R34). -/
theorem wordStoredAt_writeWord {a : Nat} {v : Word} (h : t.mem = s.mem.writeWord a v) : WordStoredAt a v s t := by
  unfold WordStoredAt
  simp only [h, Memory.read_writeWord]
  refine ⟨?low, ?high, fun b hb hb' => by rw [if_neg hb, if_neg hb']⟩
  case low => simp [lowByte_toNat]
  case high => simp [highByte_toNat]

/-- In range, a word read answers the two bytes, low byte at the lower address (R33). -/
theorem memRead16_inRange (h0 : 0 ≤ ea) (h1 : ea ≤ 65534) (s : State) :
    ∃ u, memRead16 s ea = .ok u ∧ u.toNat = (s.mem.read ea.toNat).toNat + 256 * (s.mem.read (ea.toNat + 1)).toNat :=
  ⟨_, memRead16_ok.mpr ⟨h0, h1, rfl⟩, wordOf_toNat _ _⟩

theorem memWrite16_inRange (h0 : 0 ≤ ea) (h1 : ea ≤ 65534) (s : State) (v : Word) :
    memWrite16 s ea v = .ok (setMem s (s.mem.writeWord ea.toNat v)) := memWrite16_ok.mpr ⟨h0, h1, rfl⟩

theorem memRead16_writeWord (h0 : 0 ≤ ea) (h1 : ea ≤ 65534) (s : State) (v : Word) :
    memRead16 (setMem s (s.mem.writeWord ea.toNat v)) ea = .ok v := by
  refine memRead16_ok.mpr ⟨h0, h1, ?_⟩
  rw [setMem_mem, Memory.read_writeWord, Memory.read_writeWord, if_pos rfl, if_neg (Nat.succ_ne_self _), if_pos rfl,
    wordOf_low_high]

/-- Settles O15: in range the write replaces the memory alone, by one with the word in it; out of range both checks fail. -/
theorem wordAccessIsLittleEndian : Obligations.WordAccessIsLittleEndian := by
  refine fun s ea v => ⟨fun h0 h1 => ⟨memRead16_inRange h0 h1 s, ?write⟩, fun h => ?outOfRange⟩
  case write =>
    exact ⟨_, memWrite16_inRange h0 h1 s v, wordStoredAt_writeWord (setMem_mem ..), memRead16_writeWord h0 h1 s v,
      readReg_setMem s _, ⟨rfl, rfl⟩, rfl, fun hwf => Memory.wf_writeWord v hwf (by omega)⟩
  case outOfRange => exact ⟨memRead16_error.mpr ⟨h, rfl⟩, memWrite16_error.mpr ⟨h, rfl⟩⟩

/-! ### Bytes in memory -/

theorem checkEA_byte_inRange (h0 : 0 ≤ ea) (h1 : ea ≤ 65535) : checkEA ea 1 = .ok ea.toNat :=
  checkEA_ok.mpr ⟨h0, by omega, rfl⟩

theorem checkEA_byte_outOfRange (h : ea < 0 ∨ 65535 < ea) : checkEA ea 1 = .error (.addressOutOfRange ea 1) :=
  checkEA_error.mpr ⟨by omega, rfl⟩

/-- Settles O16: in range the write replaces one byte of memory; out of range both checks fail. -/
theorem byteAccess : Obligations.ByteAccess := by
  refine fun s ea b => ⟨fun h0 h1 => ⟨?read, ?write⟩, fun h => ⟨?readFails, ?writeFails⟩⟩
  case read => rw [memRead8, checkEA_byte_inRange h0 h1]
  case write =>
    exact ⟨_, memWrite8_ok.mpr ⟨h0, h1, rfl⟩, Memory.read_write_same .., fun a ha => Memory.read_write_other _ _ _ ha,
      fun hwf => Memory.wf_write _ _ _ hwf (by simp only [Config.memSize]; omega)⟩
  case readFails => rw [memRead8, checkEA_byte_outOfRange h]
  case writeFails => rw [memWrite8, checkEA_byte_outOfRange h]

/-! ### Registers, addresses, immediates -/

/-- Settles O11: the laws of the register file. -/
theorem registerFilePorts : Obligations.RegisterFilePorts := fun s r v =>
  ⟨readReg_writeReg_same s r v, fun _ hq => readReg_writeReg_other s v hq, ⟨rfl, rfl⟩, writeReg_ip s r v,
    writeReg_mem s r v⟩

theorem effectiveAddress_ea (b : EaBase) (d : Word) (s : State) :
    effectiveAddress ⟨.ea b, d⟩ s = baseSum b s + d.toInt := rfl

/-- Settles O17: the register table, and each base's sum as an integer. -/
theorem effectiveAddressTable : Obligations.EffectiveAddressTable := by
  refine ⟨by decide, fun s d => ?_⟩
  simp only [effectiveAddress_ea]
  exact ⟨rfl, rfl, rfl, rfl, rfl, rfl, rfl, rfl, rfl⟩

/-- Settles O19: each case of R64 is an arm of `immLength` or of `ImmField.value`. -/
theorem immediateValues : Obligations.ImmediateValues :=
  ⟨⟨rfl, rfl, rfl, rfl⟩, fun _ _ => ⟨rfl, rfl, rfl, rfl⟩⟩

end Sys2Proof.Machine
end

section
/-! PROOFS. The instructions that complete, with their result and their frame (41_regmem_reg.md, 42_imm_regmem.md,
43_accumulator.md, 44_mov_imm_reg.md, 45_jumps_loops.md): one lemma for each way to complete, then the forms. -/

namespace Sys2Proof.Machine

variable {i : Instr} {s : State} {src : Operand} {v : Word} {len n : Nat} {r : Reg} {m : MemOperand}

/-! ### `mov` -/

/-- A word `mov` of a readable source to a register completes (R120, R130, R150). -/
theorem exec_mov_register (hx : exec i s = movTo .word (.register r) src len s) (hv : readOperand src s = .ok v)
    (hn : v.toNat = n) : ∃ t, exec i s = .next t ∧ MovesToRegister r n len s t := by
  refine ⟨setStatus (writeReg (advance len s) r v) .ok, by simp [hx, movTo, hv, writePlace, finish], ?_⟩
  exact {
    value := by rw [readReg_setStatus, readReg_writeReg_same, hn]
    others := fun q hq => by rw [readReg_setStatus, readReg_writeReg_other _ _ hq, readReg_advance]
    flags := ⟨rfl, rfl⟩
    memory := fun _ => rfl
    inputs := ⟨rfl, rfl⟩
    pointer := advancedBy_of_ip rfl
    status := rfl }

/-- A load, from a word of memory in range to a register, completes (R95). -/
theorem exec_load (hx : exec i s = movTo .word (.register r) (.memory m) len s) (h0 : 0 ≤ effectiveAddress m s)
    (h1 : effectiveAddress m s ≤ 65534) :
    ∃ t, exec i s = .next t ∧
      MovesToRegister r ((s.mem.read (effectiveAddress m s).toNat).toNat +
        256 * (s.mem.read ((effectiveAddress m s).toNat + 1)).toNat) len s t := by
  obtain ⟨u, hu, hval⟩ := memRead16_inRange h0 h1 s
  exact exec_mov_register hx hu hval

/-- A store, of a readable source to a word of memory in range, completes (R97). -/
theorem exec_store (hx : exec i s = movTo .word (.memory m) src len s) (hv : readOperand src s = .ok v)
    (h0 : 0 ≤ effectiveAddress m s) (h1 : effectiveAddress m s ≤ 65534) :
    ∃ t, exec i s = .next t ∧ MovesToMemory (effectiveAddress m s).toNat v len s t := by
  have hw := memWrite16_inRange h0 h1 (advance len s) v
  refine ⟨setStatus (setMem (advance len s) _) .ok, by simp only [hx, movTo, hv, writePlace, hw]; rfl, ?_⟩
  exact {
    stored := wordStoredAt_writeWord rfl
    registers := fun _ => rfl
    flags := ⟨rfl, rfl⟩
    inputs := ⟨rfl, rfl⟩
    pointer := advancedBy_of_ip rfl
    status := rfl }

/-- Settles O20: with two registers a move to a register, with memory a load or a store at the operand's place. -/
theorem movRegMemCompletes : Obligations.MovRegMemCompletes := by
  refine fun reg s => ⟨fun r => ⟨?toReg, ?toRm⟩, fun rm m hm h0 h1 => ⟨?load, ?store⟩⟩
  case toReg => exact exec_mov_register (src := .register r) rfl rfl rfl
  case toRm => exact exec_mov_register (src := .register reg) rfl rfl rfl
  case load =>
    exact exec_load (congrArg (fun p : Place => movTo .word (.register reg) p.operand (2 + rm.dispLength) s) hm) h0 h1
  case store =>
    exact exec_store (congrArg (movTo .word · (.register reg) (2 + rm.dispLength) s) hm) rfl h0 h1

/-- Settles O21: the source is the immediate, whatever the ignored field. -/
theorem movImmRegMemCompletes : Obligations.MovImmRegMemCompletes := by
  refine fun ignored v s => ⟨fun r => ?register, fun rm m hm h0 h1 => ?store⟩
  case register => exact exec_mov_register (src := .immediate v none) rfl rfl rfl
  case store =>
    have hlen : 4 + rm.dispLength = 2 + rm.dispLength + 2 := by omega
    have hx : exec (.movIm .word ignored rm (.imm16 v)) s =
        movTo .word rm.place (.immediate v (rm.place.sizeKeyword .word)) (2 + rm.dispLength + 2) s := rfl
    rw [hm] at hx
    rw [hlen]
    exact exec_store hx rfl h0 h1

/-- Settles O22: the accumulator forms are a load and a store at a direct address, which is never negative. -/
theorem movAccumulatorCompletes : Obligations.MovAccumulatorCompletes := by
  intro a s ha
  have h0 : 0 ≤ effectiveAddress ⟨.direct, a⟩ s := Int.natCast_nonneg a.toNat
  have h1 : effectiveAddress ⟨.direct, a⟩ s ≤ 65534 := Int.ofNat_le.mpr ha
  exact ⟨exec_load (i := .movAccMem .word a) (execMovAccMem_eq_movTo .word a s) h0 h1,
    exec_store (i := .movMemAcc .word a) (execMovMemAcc_eq_movTo .word a s) rfl h0 h1⟩

/-- Settles O23: the short form is a move of the immediate. -/
theorem movImmediateToRegisterCompletes : Obligations.MovImmediateToRegisterCompletes := fun r v s =>
  exec_mov_register (execMovRegImm_eq_movTo .word r (.imm16 v) s) rfl rfl

/-! ### The ALU -/

/-- A word operation on a register and a register or immediate commits (R106). -/
theorem aluTo_commits (op : AluOp) (r : Reg) (hsrc : src.isMemory = false) (hv : readOperand src s = .ok v) :
    aluTo op .word (.register r) src len s = finish .ok (aluCommit op r (readReg s r) v (advance len s)) := by
  cases src with
  | memory m => cases hsrc
  | register q => cases hv; rfl
  | immediate w size => cases hv; rfl

theorem flagsOf_aluCommit (op : AluOp) (a b : Word) (st : StepStatus) :
    FlagsOf (aluResult op a b).toNat (setStatus (aluCommit op r a b s) st) :=
  flagsOf_toNat (by simp) (by simp)

theorem readReg_aluCommit_same {op : AluOp} (hop : op ≠ .cmp) (a b : Word) :
    readReg (aluCommit op r a b s) r = aluResult op a b := by
  cases op with
  | cmp => exact absurd rfl hop
  | add | sub => exact readReg_writeReg_same ..

/-- `add` and `sub` write the result and set its flags (R100 to R102). -/
theorem exec_computes {op : AluOp} (hop : op ≠ .cmp) (hx : exec i s = aluTo op .word (.register r) src len s)
    (hsrc : src.isMemory = false) (hv : readOperand src s = .ok v) (hn : (aluResult op (readReg s r) v).toNat = n) :
    ∃ t, exec i s = .next t ∧ Computes r n len s t := by
  subst hn
  refine ⟨_, hx.trans (aluTo_commits op r hsrc hv), ?_⟩
  exact {
    value := by rw [readReg_setStatus, readReg_aluCommit_same hop]
    others := fun q hq => by rw [readReg_setStatus, readReg_aluCommit_other _ _ _ _ _ hq, readReg_advance]
    flags := flagsOf_aluCommit op _ v .ok
    memory := fun _ => by simp
    inputs := by simp [SameInputs]
    pointer := advancedBy_of_ip (by simp)
    status := rfl }

theorem exec_add (hx : exec i s = aluTo .add .word (.register r) src len s) (hsrc : src.isMemory = false)
    (hv : readOperand src s = .ok v) :
    ∃ t, exec i s = .next t ∧ Computes r (sum16 (readReg s r).toNat v.toNat) len s t :=
  exec_computes (op := .add) nofun hx hsrc hv (aluAdd_toNat _ v)

theorem exec_sub (hx : exec i s = aluTo .sub .word (.register r) src len s) (hsrc : src.isMemory = false)
    (hv : readOperand src s = .ok v) :
    ∃ t, exec i s = .next t ∧ Computes r (difference16 (readReg s r).toNat v.toNat) len s t :=
  exec_computes (op := .sub) nofun hx hsrc hv (aluSub_toNat _ v)

/-- `cmp` sets the flags of the difference and writes no register (R104). -/
theorem exec_cmp (hx : exec i s = aluTo .cmp .word (.register r) src len s) (hsrc : src.isMemory = false)
    (hv : readOperand src s = .ok v) :
    ∃ t, exec i s = .next t ∧ Compares (difference16 (readReg s r).toNat v.toNat) len s t := by
  refine ⟨_, hx.trans (aluTo_commits .cmp r hsrc hv), ?_⟩
  exact {
    registers := fun q => by rw [readReg_setStatus, readReg_aluCommit_cmp, readReg_advance]
    flags := aluSub_toNat (readReg s r) v ▸ flagsOf_aluCommit .cmp _ v .ok
    memory := fun _ => by simp
    inputs := by simp [SameInputs]
    pointer := advancedBy_of_ip (by simp)
    status := rfl }

/-- Settles O24: in both directions the destination is a register and the source the other one. -/
theorem aluRegisterFormsComplete : Obligations.AluRegisterFormsComplete := by
  refine fun dst src s => ⟨⟨?_, ?_⟩, ⟨?_, ?_⟩, ?_, ?_⟩
  · exact exec_add (r := dst) (src := .register src) rfl rfl rfl
  · exact exec_add (r := dst) (src := .register src) rfl rfl rfl
  · exact exec_sub (r := dst) (src := .register src) rfl rfl rfl
  · exact exec_sub (r := dst) (src := .register src) rfl rfl rfl
  · exact exec_cmp (r := dst) (src := .register src) rfl rfl rfl
  · exact exec_cmp (r := dst) (src := .register src) rfl rfl rfl

/-- Settles O25: the source is the immediate's value, two bytes as they are or one byte sign-extended. -/
theorem aluImmediateFormsComplete : Obligations.AluImmediateFormsComplete := by
  refine fun r s => ⟨fun v => ⟨?_, ?_, ?_⟩, fun d => ⟨?_, ?_, ?_⟩⟩
  · exact exec_add (src := .immediate v none) rfl rfl rfl
  · exact exec_sub (src := .immediate v none) rfl rfl rfl
  · exact exec_cmp (r := r) (src := .immediate v none) rfl rfl rfl
  · exact exec_add (src := .immediate (sext16 d) none) rfl rfl rfl
  · exact exec_sub (src := .immediate (sext16 d) none) rfl rfl rfl
  · exact exec_cmp (r := r) (src := .immediate (sext16 d) none) rfl rfl rfl

/-- Settles O26: the accumulator forms are the immediate forms on `ax`. -/
theorem aluAccumulatorFormsComplete : Obligations.AluAccumulatorFormsComplete := fun v s =>
  ⟨exec_add (aluAcc_eq_aluTo .add .word (.imm16 v) 3 s) rfl rfl,
    exec_sub (aluAcc_eq_aluTo .sub .word (.imm16 v) 3 s) rfl rfl,
    exec_cmp (aluAcc_eq_aluTo .cmp .word (.imm16 v) 3 s) rfl rfl⟩

/-! ### The handler-less mnemonics -/

/-- Under the default policy the step of a handler-less mnemonic advances `ip` and drives the status (R107). -/
theorem exec_handlerless (h : isHandlerless i = true) (hp : s.policy = .advanceOnly) :
    exec i s = .next (setStatus (advance 2 s) .noHandler) := by
  cases execForm i with
  | mov _ _ hm => simp [isHandlerless_eq_false_of_mov hm] at h
  | alu _ _ _ hm => simp [isHandlerless_eq_false_of_alu (isAlu_of_aluMnemonic hm)] at h
  | jnz d hi => subst hi; cases h
  | handlerless d _ _ _ hx =>
    rw [hx, noHandlerStep, hp]
    rfl

/-- Settles O28: each of the 19 is handler-less, so each takes that step. -/
theorem handlerlessJumpsOnlyAdvance : Obligations.HandlerlessJumpsOnlyAdvance := by
  intro j hj d s hp
  have handlerless : isHandlerless (j d) = true := by
    simp only [List.mem_cons, List.not_mem_nil, or_false] at hj
    rcases hj with rfl | rfl | rfl | rfl | rfl | rfl | rfl | rfl | rfl | rfl | rfl | rfl | rfl | rfl | rfl | rfl | rfl |
      rfl | rfl <;> rfl
  exact ⟨_, exec_handlerless handlerless hp, advancedBy_of_ip rfl, rfl, fun _ => rfl, ⟨rfl, rfl⟩, fun _ => rfl, ⟨rfl, rfl⟩⟩

end Sys2Proof.Machine
end

section
/-! PROOFS. What the block reports (40_datapath.md section 6): the diff of a step, the final state, and how a session ends
(60_exceptions.md section 5). -/

namespace Sys2Proof.Machine

variable {s t : State}

/-! ### The diff -/

theorem changed_eq_some {α : Type} [DecidableEq α] {old new : α} {c : α × α} :
    changed α old new = some c ↔ c = (old, new) ∧ old ≠ new := by
  unfold changed
  split <;> simp [*, eq_comm]

theorem mem_allRegs (r : Reg) : r ∈ allRegs := by cases r <;> decide

theorem allRegs_nodup : allRegs.Nodup := by decide

/-- What one element of a list without repetitions alone gives is at most one value. -/
theorem length_filterMap_le_one {α β : Type} {f : α → Option β} {d : α} (h : ∀ x, x ≠ d → f x = none) {l : List α}
    (hl : l.Nodup) : (l.filterMap f).length ≤ 1 := by
  induction l with
  | nil => exact Nat.zero_le 1
  | cons x xs ih =>
    obtain ⟨hx, hxs⟩ := List.nodup_cons.mp hl
    by_cases hd : x = d
    · have rest : xs.filterMap f = [] :=
        List.filterMap_eq_nil_iff.mpr fun y hy => h y fun e => hx (by rwa [hd, ← e])
      rw [List.filterMap_cons, rest]
      cases f x <;> simp
    · rw [List.filterMap_cons_none (h x hd)]
      exact ih hxs

theorem mem_diff_regs {r : Reg} {old new : Word} :
    (r, old, new) ∈ (diff s t).regs ↔ old = readReg s r ∧ new = readReg t r ∧ old ≠ new := by
  simp only [diff, List.mem_filterMap, Option.map_eq_some_iff, changed_eq_some]
  constructor
  · rintro ⟨q, -, c, ⟨rfl, hne⟩, h⟩
    cases h
    exact ⟨rfl, rfl, hne⟩
  · rintro ⟨rfl, rfl, hne⟩
    exact ⟨r, mem_allRegs r, _, ⟨rfl, hne⟩, rfl⟩

/-- Where no register but `d` changed, the diff lists at most one (R12). -/
theorem diff_regs_length {d : Reg} (h : SameRegsBut d s t) : (diff s t).regs.length ≤ 1 :=
  length_filterMap_le_one (d := d) (fun r hr => by simp [changed, h r hr]) allRegs_nodup

theorem Completes.diff_regs_length {i : Instr} (h : Completes i s t) : (diff s t).regs.length ≤ 1 := by
  obtain same | ⟨r, -, -, others⟩ := h.registers
  · exact Machine.diff_regs_length (same.sameRegsBut .ax)
  · exact Machine.diff_regs_length others

/-- Bit 0 is `ZF`, bit 1 is `SF` (R17). -/
theorem flagMask_toNat (s : State) : (flagMask s).toNat = s.zf.toNat + 2 * s.sf.toNat := by
  unfold flagMask
  cases s.zf <;> cases s.sf <;> rfl

theorem flagMask_eq_iff : flagMask s = flagMask t ↔ SameFlags s t := by
  have masks : ∀ z f z' f' : Bool,
      BitVec.ofBool f ++ BitVec.ofBool z = BitVec.ofBool f' ++ BitVec.ofBool z' ↔ z' = z ∧ f' = f := by decide
  exact masks s.zf s.sf t.zf t.sf

/-- Settles O51: each part of the diff lists a change exactly when there is one; an instruction changes one register at
most. -/
theorem diffListsExactlyTheChanges : Obligations.DiffListsExactlyTheChanges := by
  intro s t h
  obtain ⟨-, i, n, -, hexec⟩ := step_next h
  refine ⟨(exec_next hexec).diff_regs_length, fun _ _ _ => mem_diff_regs, fun _ => changed_eq_some, fun c => ?flags,
    flagMask_toNat⟩
  case flags => rw [← flagMask_eq_iff]; exact changed_eq_some

/-! ### The final state -/

theorem mem_finalReport_regs {r : Reg} {v : Word} : (r, v) ∈ (finalReport s).regs ↔ v = readReg s r ∧ v ≠ 0#16 := by
  simp only [finalReport, List.mem_filterMap]
  constructor
  · rintro ⟨q, -, h⟩
    split at h
    · cases h
    next hne =>
      cases h
      exact ⟨rfl, hne⟩
  · rintro ⟨rfl, hne⟩
    exact ⟨r, mem_allRegs r, if_neg hne⟩

/-- Two entries of the report that are equal are of one register. -/
theorem finalReport_regs_nodup : (finalReport s).regs.Nodup := by
  refine allRegs_nodup.filterMap fun r q b hr hq => ?_
  split at hr
  · cases hr
  · split at hq
    · cases hq
    · cases hr
      cases hq
      rfl

theorem mem_flagLetters {c : Char} : c ∈ flagLetters s ↔ c = 'Z' ∧ s.zf = true ∨ c = 'S' ∧ s.sf = true := by
  unfold flagLetters
  cases s.zf <;> cases s.sf <;> simp

theorem flagLetters_nodup : (flagLetters s).Nodup := by
  unfold flagLetters
  cases s.zf <;> cases s.sf <;> decide

/-- Settles O53: registers and letters by membership, each once. -/
theorem finalReportContent : Obligations.FinalReportContent := fun _ =>
  ⟨fun _ _ => mem_finalReport_regs, finalReport_regs_nodup, rfl, fun _ => mem_flagLetters, flagLetters_nodup⟩

/-! ### Sessions -/

theorem stepReport_next (h : step s = .next t) : stepReport s = .next t t.status (diff s t) := by rw [stepReport, h]

theorem stepReport_fault {f : Fault} (h : step s = .fault f) (hf : f ≠ .endOfBuffer) : stepReport s = .fault f := by
  rw [stepReport, h]
  cases f with
  | endOfBuffer => exact absurd rfl hf
  | _ => rfl

theorem stepReport_halt (h : step s = .fault .endOfBuffer) : stepReport s = .halt := by rw [stepReport, h]

theorem stepReport_refused {r : Refusal} (h : step s = .refused r) : stepReport s = .refused r := by rw [stepReport, h]

theorem Reaches.head {u : State} (hs : Machine.step s = .next t) (h : Reaches t u) : Reaches s u := by
  induction h with
  | refl => exact .step .refl hs
  | step _ hu ih => exact .step ih hu

/-- What the end of a session from `s` says of the state it gives (R113, R209). -/
def SessionEnd.Precise (s : State) : SessionEnd → Prop
  | .running t => Reaches s t
  | .halted t => EndsNormally s t
  | .faulted t f => Reaches s t ∧ step t = .fault f ∧ f ≠ .endOfBuffer
  | .refused t r => Reaches s t ∧ step t = .refused r

theorem SessionEnd.Precise.head {e : SessionEnd} (hs : step s = .next t) (h : e.Precise t) : e.Precise s := by
  cases e with
  | running u => exact Reaches.head hs h
  | halted u | faulted u f | refused u r => exact ⟨h.1.head hs, h.2⟩

theorem runSession_precise (fuel : Nat) (s : State) : (runSession fuel s).Precise s := by
  induction fuel generalizing s with
  | zero => exact .refl
  | succ fuel ih =>
    rw [runSession]
    cases hs : step s with
    | next t =>
      rw [stepReport_next hs]
      exact (ih t).head hs
    | refused r =>
      rw [stepReport_refused hs]
      exact ⟨.refl, hs⟩
    | fault f =>
      by_cases hf : f = .endOfBuffer
      · rw [stepReport_halt (hf ▸ hs)]
        exact ⟨.refl, hf ▸ hs⟩
      · rw [stepReport_fault hs hf]
        exact ⟨.refl, hs, hf⟩

/-- Settles O52: by induction on the bound, the end of a session is precise. -/
theorem sessionEndsPrecisely : Obligations.SessionEndsPrecisely := by
  intro fuel s
  have precise := runSession_precise fuel s
  refine ⟨fun t h => ?_, fun t f h => ?_, fun t r h => ?_, fun t h => ?_⟩ <;>
  · rw [h] at precise
    exact precise

end Sys2Proof.Machine
end
